-- ==== Sys2Proof/Word.lean ====
section
/-!
DEFINITION. The value types of the command interface (`00_scope.md` R14) and of the opcode byte
(`30_encoding.md` R88). A bit string has a length fixed only at run time (`n*m` bits, configured by
`CFG`), so it is a list of bits, position 0 leftmost (R10).
-/

namespace Sys2Proof

/-- `Bits` (R10, R14): a finite sequence of bits; the head is position 0, the leftmost bit. -/
abbrev Bits := List Bool

/-- `Syms` (R14): a finite sequence of natural numbers; that each fits its width is checked when
used, never assumed. -/
abbrev Syms := List Nat

/-- `Text` (R14): a finite sequence of code points; that each is below 256 is checked when used. -/
abbrev Text := List Nat

/-- `Blocks` (R14): a finite sequence of bit strings; that each has the block width is checked when
used. -/
abbrev Blocks := List Bits

/-- The opcode byte of a command (R88), bit 7 most significant. -/
abbrev Opcode := BitVec 8

end Sys2Proof
end

