-- ==== Sys2Proof/Syntax.lean ====
section
/-!
DEFINITION. The 21 commands of the core (`30_encoding.md` R89, R90), one constructor per row of
`spec/opcode_table.json`, each with its typed operands; and a command as the host presents it, an
opcode byte with the operand ports (R88, R89).
-/

namespace Sys2Proof

/-- A command with its operands (R89). Every operand is a value of its port's type; no value of that
type is excluded here, since the core itself checks operands and answers with an error (R220). -/
inductive Instr where
  /-- `01`, construction of the engine (R210). -/
  | cfg (n m r : Nat) (sbox perm : Syms) (key : Bits)
  /-- `02`, read `STATUS` (R215). -/
  | stat
  /-- `10`, bits to symbols (R111). -/
  | b2s (a : Bits) (k : Nat)
  /-- `11`, symbols to bits (R113). -/
  | s2b (a : Syms) (k : Nat)
  /-- `12`, text to bits (R115). -/
  | t2b (a : Text)
  /-- `13`, bits to text (R117). -/
  | b2t (a : Bits)
  /-- `14`, pad to a block multiple (R121). -/
  | pad (a : Bits) (k : Nat)
  /-- `15`, split into blocks (R125). -/
  | split (a : Bits) (k : Nat)
  /-- `16`, concatenate blocks (R127). -/
  | join (a : Blocks)
  /-- `17`, exclusive-or of two bit strings (R128). -/
  | xor (a b : Bits)
  /-- `20`, S-box on each symbol (R140). -/
  | sub (a : Syms)
  /-- `21`, inverse S-box on each symbol (R141). -/
  | isub (a : Syms)
  /-- `22`, bit permutation of a block (R150). -/
  | prm (a : Bits)
  /-- `23`, inverse bit permutation (R151). -/
  | iprm (a : Bits)
  /-- `24`, round keys from a master key (R161). -/
  | kgen (a : Bits)
  /-- `30`, encrypt one block (R171). -/
  | enc (a : Bits)
  /-- `31`, decrypt one block (R177). -/
  | dec (a : Bits)
  /-- `40`, CTR transform of a stream with its IV in front (R193). -/
  | ctrx (a : Blocks)
  /-- `41`, CTR, sending direction, `b` the IV (R196). -/
  | ctre (b : Bits) (a : Blocks)
  /-- `42`, text to ciphertext bit string, `b` the IV (R203). -/
  | menc (a : Text) (b : Bits)
  /-- `43`, ciphertext bit string to text (R204). -/
  | mdec (a : Bits)
  deriving DecidableEq, Repr

/-- The operand ports (R89). Port `a` is typed per command, so it has one field per type it can
carry: a value of the wrong type cannot be presented (R91 (d)). DESIGN CHOICE, safe (log 9). -/
structure Ports where
  /-- Port `a` of the commands whose primary operand is `Bits`. -/
  aBits : Bits := []
  /-- Port `a` of the commands whose primary operand is `Syms`. -/
  aSyms : Syms := []
  /-- Port `a` of the commands whose primary operand is `Text`. -/
  aText : Text := []
  /-- Port `a` of the commands whose primary operand is `Blocks`. -/
  aBlocks : Blocks := []
  /-- Port `b`: the second operand of `XOR`, the IV of `CTRE` and `MENC`. -/
  b : Bits := []
  /-- Port `k`: a width. -/
  k : Nat := 0
  /-- Ports of `CFG` only: bits per symbol. -/
  n : Nat := 0
  /-- Symbols per block. -/
  m : Nat := 0
  /-- Round count. -/
  r : Nat := 0
  /-- The S-box table (R87). -/
  sbox : Syms := []
  /-- The permutation table (R87). -/
  perm : Syms := []
  /-- The master key (R85). -/
  key : Bits := []
  deriving DecidableEq, Repr

/-- A command as the host presents it: one opcode byte and the operand ports (R88, R93). -/
structure Command where
  op : Opcode
  ports : Ports
  deriving DecidableEq, Repr

end Sys2Proof
end

