-- ==== Sys2Proof/Machine/State.lean ====
section
/-!
DEFINITION. The architectural state of one core (`10_state.md` R20) as plain data, the reasons a
step can stop, and the state after reset (R44).
-/

namespace Sys2Proof.Machine

/-- The error classes of the core (`60_exceptions.md` R220). Each is answered to the host in a next
state; none stops the machine. -/
inductive ErrClass where
  /-- Code 1: construction operands refused, or a key that is too short (R221). -/
  | configurationError
  /-- Code 2: an operand of the wrong length (R222). -/
  | lengthMismatch
  /-- Code 3: a symbol or a code point out of its range (R223). -/
  | rangeError
  /-- Code 4: an undefined opcode, a command the lifecycle state does not admit, a zero width (R225). -/
  | illegalCommand
  deriving DecidableEq, Repr

/-- The phases of the round engine (R36), in the order of their codes 0 to 7. -/
inductive Phase where
  | idle
  | whitened
  | round
  | finalRound
  | output
  | unFinal
  | unRound
  | unWhitened
  deriving DecidableEq, Repr

/-- The configuration store (R21, R27 to R32): every register of it is written by a successful `CFG`
and by nothing else (R40). -/
structure Store where
  /-- `N`: bits per symbol (R21). -/
  n : Nat
  /-- `M`: symbols per block (R21). -/
  m : Nat
  /-- `R`: round count (R21). -/
  r : Nat
  /-- `KEY[0..m+r-1]` (R27). -/
  key : Syms
  /-- `RK[0..r]` (R28). -/
  rk : Blocks
  /-- `SBOX[0..2^n-1]` (R29). -/
  sbox : Syms
  /-- `INVSBOX[0..2^n-1]` (R30). -/
  invsbox : Syms
  /-- `PERM[0..W-1]` (R31). -/
  perm : Syms
  /-- `INVPERM[0..W-1]` (R32). -/
  invperm : Syms
  deriving DecidableEq, Repr

/-- The lifecycle (R22, R234) with the configuration store. The store holds a value in `Ready` and in
no other lifecycle state: R44 has the model hold "no value" there and make a read impossible, and so
it is (log 4). -/
inductive Engine where
  /-- `LIFE = 0`, `Unconfigured`: no engine constructed. -/
  | unconfigured
  /-- `LIFE = 1`, `Ready`: constructed, the store valid and immutable. -/
  | ready (c : Store)
  /-- `LIFE = 2`, `Failed`: construction was attempted and refused. -/
  | failed
  deriving DecidableEq, Repr

/-- A command's typed result (R89, R96). -/
inductive Result where
  /-- `STATUS`, the result of `STAT`. -/
  | status (w : BitVec 16)
  | bits (b : Bits)
  | syms (s : Syms)
  | text (t : Text)
  | blocks (b : Blocks)
  deriving DecidableEq, Repr

/-- The response of a command (R96): its error code (`none` is code 0), the `DEGEN` bit as the command
left it, and its result. The result is absent on an error and for `CFG`, which has none. -/
structure Response where
  err : Option ErrClass
  degen : Bool
  result : Option Result
  deriving DecidableEq, Repr

/-- What the host does to the core. -/
inductive HostEvent where
  /-- A command is issued (R88). -/
  | command (c : Command)
  /-- The core is reset between two commands (R250). -/
  | reset
  /-- A command is issued and the core is reset before it answers (R250, 93 X6). -/
  | cutShort (c : Command)
  deriving DecidableEq, Repr

/-- The state of one core (R20), and the model's two ports to the host. -/
structure State where
  /-- `LIFE` with the configuration store (R21, R22, R27 to R32). -/
  engine : Engine
  /-- `STATUS.ERR` (R24): the class of the most recent command other than `STAT`; `none` is code 0. -/
  err : Option ErrClass
  /-- `STATUS.DEGEN` (R26). -/
  degen : Bool
  /-- `STATUS.SEEN` (R25): bit 0 ConfigurationError, 1 LengthMismatch, 2 RangeError, 3 IllegalCommand. -/
  seen : BitVec 4
  /-- `STATUS.DSEEN` (R26). -/
  dseen : Bool
  /-- `S`, the block state of the round engine (R33). -/
  blk : Bits
  /-- `RND`, the index of the round key last mixed in (R34). -/
  rnd : Nat
  /-- `PHASE` (R36). -/
  phase : Phase
  /-- `IV` (R37). -/
  iv : Bits
  /-- `CNT` (R38). -/
  cnt : Bits
  /-- `IDX` (R39). -/
  idx : Nat
  /-- The model's own input: the events the host has issued and the core has not yet taken, oldest
  first. DESIGN CHOICE, safe (log 1). -/
  pending : List HostEvent
  /-- The model's own output: the response of the most recent command (R96), `none` if there has been
  none since reset. DESIGN CHOICE, safe (log 2). -/
  response : Option Response
  deriving DecidableEq, Repr

/-- The core never stops with a fault: the spec has no trap, and every error is an answer after which
the core goes on (R226, R228, R230). So there is no constructor, and nothing raises one. -/
inductive Fault where
  deriving DecidableEq, Repr

/-- The reasons to give an instruction no meaning. -/
inductive Refusal where
  /-- An instruction that has no meaning yet. Raised by `exec`'s arms only; at present by none. Safe. -/
  | notModelled (mnemonic : String)
  deriving DecidableEq, Repr

/-- The core after reset (R44, R250): `Unconfigured`, `STATUS = 0`, `PHASE = IDLE`, `RND = 0`,
`IDX = 0`, the store without a value. `S`, `IV` and `CNT`, which R44 leaves unspecified, hold the
empty bit string, which no `W`-bit block is. DESIGN CHOICE, unsafe (log 3). No event is pending and
no response has been given (log 1, log 2). -/
def State.reset : State where
  engine := .unconfigured
  err := none
  degen := false
  seen := 0
  dseen := false
  blk := []
  rnd := 0
  phase := .idle
  iv := []
  cnt := []
  idx := 0
  pending := []
  response := none

end Sys2Proof.Machine
end

