-- ==== Sys2Proof/Machine/Flags.lean ====
section
/-!
DEFINITION. The codes of the named values (`10_state.md` R22, R24, R25, R36) and the `STATUS` word
(R23). The fields of `State` are the bits' one home; the word is computed from them.
-/

namespace Sys2Proof.Machine

/-- `LIFE` (R22). Code 3 never occurs. -/
def lifeCode : Engine → BitVec 2
  | .unconfigured => 0
  | .ready _ => 1
  | .failed => 2

/-- `ERR` (R24). Codes 5 to 7 never occur. -/
def errCode : Option ErrClass → BitVec 3
  | none => 0
  | some .configurationError => 1
  | some .lengthMismatch => 2
  | some .rangeError => 3
  | some .illegalCommand => 4

/-- The bit of `SEEN` that records an error class (R25). -/
def seenMask : ErrClass → BitVec 4
  | .configurationError => 0b0001
  | .lengthMismatch => 0b0010
  | .rangeError => 0b0100
  | .illegalCommand => 0b1000

/-- `PHASE` (R36). -/
def phaseCode : Phase → BitVec 3
  | .idle => 0
  | .whitened => 1
  | .round => 2
  | .finalRound => 3
  | .output => 4
  | .unFinal => 5
  | .unRound => 6
  | .unWhitened => 7

/-- `STATUS` (R23), from bit 15 down: five zeros, `DSEEN`, `SEEN`, `DEGEN`, `ERR`, `LIFE`. -/
def statusWord (s : State) : BitVec 16 :=
  0#5 ++ BitVec.ofBool s.dseen ++ s.seen ++ BitVec.ofBool s.degen ++ errCode s.err ++
    lifeCode s.engine

end Sys2Proof.Machine
end

