-- ==== Sys2Proof/Config.lean ====
section
/-!
DEFINITION. What this hardware fixes for every configuration (`00_scope.md` R9), and the reference
instantiation (R5, R6) as named constants. The sizes, the two tables and the key of a core are not
here: they are construction operands of `CFG` (R4, R6) and live in `Machine.Store`. No behaviour of
this core is left free by the spec (`93_implementation_defined.md` parts 1 and 2), so there is no
opaque constant.
-/

namespace Sys2Proof.Config

/-- Character width of the text boundary: 8 bits (R9, R81). -/
def charWidth : Nat := 8

/-- The padding marker bit: the constant `1` (R9, R122). -/
def markerBit : Bool := true

/-- `n`, `m` and `r` of the reference instantiation (R5): each is 4. -/
def refSize : Nat := 4

/-- `REF_SBOX` (R6). PRESUMED: general knowledge by the spec's own mark (93 G1), unsafe only for a
claim that names it (log 15). -/
def refSBox : Syms := [14, 4, 13, 1, 2, 15, 11, 8, 3, 10, 6, 12, 5, 9, 0, 7]

/-- `REF_PERM` (R6). PRESUMED: general knowledge by the spec's own mark (93 G2), unsafe only for a
claim that names it (log 15). -/
def refPerm : Syms := [0, 4, 8, 12, 1, 5, 9, 13, 2, 6, 10, 14, 3, 7, 11, 15]

end Sys2Proof.Config
end

