-- ==== Sys2Proof/Machine/Operands.lean ====
section
/-!
DEFINITION. The notation of `00_scope.md` R10 to R12 as functions (integer view, slices, zero fill,
exclusive-or, symbol view), and every operand form built on it: chunking, text, padding, tables,
the key schedule and the CTR counter. No state appears here.
-/

namespace Sys2Proof.Machine

/-! ## Bit strings (R10 to R12) -/

/-- `val(b)` (R11): the integer of a bit string, leftmost bit most significant; `val "" = 0`. -/
def val (b : Bits) : Nat :=
  b.foldl (fun v x => 2 * v + x.toNat) 0

/-- `bits_k(v)` (R11): position `i` of the `k`-bit string is integer bit `k-1-i` of `v`. -/
def bitsOf (k v : Nat) : Bits :=
  (List.range k).map fun i => v.testBit (k - 1 - i)

/-- `sub(b, i, k)` (R10): the `k` bits from position `i` on. -/
def subBits (b : Bits) (i k : Nat) : Bits :=
  (b.drop i).take k

/-- `0^k` (R10). -/
def zeros (k : Nat) : Bits :=
  List.replicate k false

/-- `a ⊕ b` (R10, R18 (b)), position by position, for strings of equal length. -/
def xorBits (a b : Bits) : Bits :=
  List.zipWith Bool.xor a b

/-- `sym_n(b, j)` (R12): symbol `j` of a bit string, symbol 0 leftmost. -/
def symAt (n : Nat) (b : Bits) (j : Nat) : Nat :=
  val (subBits b (j * n) n)

/-! ## Chunks (R111, R112, R125, R126) -/

/-- `ceil(len / k)`, the number of `k`-bit chunks of a string of length `len`. -/
def chunkCount (len k : Nat) : Nat :=
  (len + k - 1) / k

/-- The documented zero fill of `B2S` and `SPLIT` (R112, R126): zeros on the right up to a whole
number of `k`-bit chunks. -/
def zeroFill (a : Bits) (k : Nat) : Bits :=
  a ++ zeros (chunkCount a.length k * k - a.length)

/-- `bitsToSymbols` (R111): the chunks of the zero-filled string, each as an integer. -/
def bitsToSymbols (a : Bits) (k : Nat) : Syms :=
  (List.range (chunkCount a.length k)).map fun t => symAt k (zeroFill a k) t

/-- `symbolsToBits` (R113): each symbol as `k` bits, concatenated in order. -/
def symbolsToBits (a : Syms) (k : Nat) : Bits :=
  a.flatMap (bitsOf k)

/-- `splitIntoBlocks` (R125): the chunks of the zero-filled string. -/
def splitIntoBlocks (a : Bits) (k : Nat) : Blocks :=
  (List.range (chunkCount a.length k)).map fun t => subBits (zeroFill a k) (t * k) k

/-- `JOIN` (R127): the blocks concatenated in index order. -/
def joinBlocks (a : Blocks) : Bits :=
  a.flatten

/-- Every symbol is below `bound` (the range checks of R113, R116, R142). -/
def allBelow (bound : Nat) (a : List Nat) : Bool :=
  a.all fun x => decide (x < bound)

/-- Every block has length `w` (the stream check of R199 (b)). -/
def allOfWidth (w : Nat) (a : Blocks) : Bool :=
  a.all fun b => b.length == w

/-! ## Text (R115 to R119) and padding (R121, R124) -/

/-- `textToBits` (R115): the 8-bit code points, concatenated. -/
def textToBits (a : Text) : Bits :=
  a.flatMap (bitsOf Config.charWidth)

/-- Every code point is a single byte, below 256 (R116). -/
def isByteText (a : Text) : Bool :=
  a.all fun x => decide (x < 2 ^ Config.charWidth)

/-- `max { i | a{i} = marker }` (R117, R122): the position of the last marker bit, if there is one. -/
def lastMarker : Bits → Option Nat
  | [] => none
  | x :: xs =>
    match lastMarker xs with
    | some p => some (p + 1)
    | none => if x = Config.markerBit then some 0 else none

/-- What `bitsToText` finds (R117 to R119): a text, no marker at all, or a remainder that is not a
whole number of characters. -/
inductive DecodedText where
  | text (t : Text)
  | noMarker
  | misaligned
  deriving DecidableEq, Repr

/-- `bitsToText` (R117): cut at the last marker, read the rest as 8-bit code points. -/
def bitsToText (a : Bits) : DecodedText :=
  match lastMarker a with
  | none => .noMarker
  | some p =>
    if p % Config.charWidth = 0 then
      .text ((List.range (p / Config.charWidth)).map fun t =>
        symAt Config.charWidth (subBits a 0 p) t)
    else .misaligned

/-- The number of zeros after the marker (R124). -/
def padZeros (len k : Nat) : Nat :=
  (k - (len + 1) % k) % k

/-- `padForBlocks` (R121): the marker, then zeros up to a multiple of `k`. -/
def padForBlocks (a : Bits) (k : Nat) : Bits :=
  a ++ Config.markerBit :: zeros (padZeros a.length k)

/-! ## Tables (R29 to R32, R150, R152, R211) -/

/-- Entry `i` of a table register file. In every core `CFG` has made, `i` is in range (R226); outside
it the model reads 0. DESIGN CHOICE, unsafe only for a claim about a store that no `CFG` makes (log 5). -/
def tableAt (t : List Nat) (i : Nat) : Nat :=
  t.getD i 0

/-- A total bijection on `{0, …, size-1}` (R211 items 2 and 3): the right length, every entry in
range, no two entries equal. -/
def isBijection (t : List Nat) (size : Nat) : Bool :=
  t.length == size && allBelow size t && decide t.Nodup

/-- The scatter loop `for i: q[p[i]] <- xs[i]` (R150, R152, and R30, R32 for the inverse tables),
over a result of `p.length` entries. -/
def scatter {α : Type} (d : α) (p : List Nat) (xs : List α) : List α :=
  (p.zip xs).foldl (fun q e => q.set e.1 e.2) (List.replicate p.length d)

/-- The inverse table (R30, R32): `for x: inv[t[x]] <- x`. -/
def invertTable (t : List Nat) : List Nat :=
  scatter 0 t (List.range t.length)

/-! ## Key schedule (R160) and CTR counter (R191) -/

/-- `rk(key, i)` (R160): the `n*m` bits starting at bit position `i*n`. -/
def roundKey (n m : Nat) (key : Bits) (i : Nat) : Bits :=
  subBits key (i * n) (n * m)

/-- The `r+1` round keys of a master key (R160). -/
def keySchedule (n m r : Nat) (key : Bits) : Blocks :=
  (List.range (r + 1)).map (roundKey n m key)

/-- The `m+r` symbols of a master key (R27, R85). -/
def keySymbols (n m r : Nat) (key : Bits) : Syms :=
  (List.range (m + r)).map (symAt n key)

/-- `counter(iv, i) = bits_W((val(iv) + (i-1)) mod 2^W)` (R191), for a 1-based index `i`. -/
def counter (w : Nat) (iv : Bits) (i : Nat) : Bits :=
  bitsOf w ((val iv + (i - 1)) % 2 ^ w)

/-! ## Construction operands (R211) -/

/-- `valid` of `CFG` (R211): positive sizes, two bijections, a key that is long enough. -/
def cfgValid (n m r : Nat) (sbox perm : Syms) (key : Bits) : Bool :=
  decide (1 ≤ n) && decide (1 ≤ m) && decide (1 ≤ r) &&
    isBijection sbox (2 ^ n) && isBijection perm (n * m) &&
    decide (n * (m + r) ≤ key.length)

end Sys2Proof.Machine
end

