-- ==== Sys2Proof/Machine/Ops.lean ====
section
/-!
DEFINITION. The shared operations of the commands: raising an error (`60_exceptions.md` R228, this
core's whole exception entry; R230: nothing is entered, so nothing returns), completing with a
result (R96), the lifecycle check (R92), the block layers (R145, R155) and the round keys.
-/

namespace Sys2Proof.Machine

/-- What a command answers: this core only ever answers a next state. -/
abbrev Answer := Host.Outcome State Fault Refusal

/-! ## Errors and completion -/

/-- `raise E` (R228): the command stops, `ERR` and the `SEEN` bit record the class, `DEGEN` is
cleared, the engine is idle, and the response carries the code and no result. Nothing is saved
anywhere else. -/
def raiseErr (e : ErrClass) (s : State) : State :=
  { s with
    err := some e
    seen := s.seen ||| seenMask e
    degen := false
    phase := .idle
    idx := 0
    response := some ⟨some e, false, none⟩ }

/-- ConfigurationError raised by `CFG` (R213, R228): fatal, `LIFE <- Failed`. -/
def raiseFatal (s : State) : State :=
  { raiseErr .configurationError s with engine := .failed }

/-- Completion (R24, R26, R96): `ERR <- 0`, `DEGEN` as given, recorded in `DSEEN` if set, and the
response carries the result. -/
def complete (degen : Bool) (q : Option Result) (s : State) : State :=
  { s with
    err := none
    degen := degen
    dseen := s.dseen || degen
    response := some ⟨none, degen, q⟩ }

/-- A command that ends in an error. -/
def answerErr (e : ErrClass) (s : State) : Answer :=
  .next (raiseErr e s)

/-- A command that completes with a result and `DEGEN = 0`. -/
def answerOk (q : Result) (s : State) : Answer :=
  .next (complete false (some q) s)

/-- Admission in `Ready` only (R92): any other lifecycle state raises IllegalCommand before anything
else (R227 (1)). -/
def whenReady (s : State) (run : Store → Answer) : Answer :=
  match s.engine with
  | .ready c => run c
  | _ => answerErr .illegalCommand s

/-- The zero-width check (R129): after the lifecycle check, before every other (R227 (2)). -/
def whenWidth (k : Nat) (s : State) (run : Answer) : Answer :=
  if k = 0 then answerErr .illegalCommand s else run

/-! ## Stream access (R13, R50) -/

/-- `MemRead(STREAM, i)` (R50). An index outside the stream is never generated. -/
def memRead (stream : Blocks) (i : Nat) : Bits :=
  stream.getD i []

/-- `MemWrite(OUT, i, v)` (R50) at the next index in ascending order (R194): each output index is
written once, in order, so the block is appended. -/
def memWrite (out : Blocks) (v : Bits) : Blocks :=
  out ++ [v]

/-! ## The configured core -/

/-- `W = n*m` (R4). -/
def Store.width (c : Store) : Nat :=
  c.n * c.m

/-- `RK[i]` (R28). -/
def Store.roundKeyAt (c : Store) (i : Nat) : Bits :=
  c.rk.getD i []

/-- `SUB` on a sequence of symbols (R140): each symbol `x` becomes `SBOX[x]`. -/
def substSyms (c : Store) (a : Syms) : Syms :=
  a.map (tableAt c.sbox)

/-- `ISUB` on a sequence of symbols (R141): each symbol `y` becomes `INVSBOX[y]`. -/
def invSubstSyms (c : Store) (a : Syms) : Syms :=
  a.map (tableAt c.invsbox)

/-- `subst(b)` (R145): `SUB` seen on the bit string of a block. -/
def subst (c : Store) (b : Bits) : Bits :=
  symbolsToBits (substSyms c (bitsToSymbols b c.n)) c.n

/-- `invsubst(b)` (R145). -/
def invSubst (c : Store) (b : Bits) : Bits :=
  symbolsToBits (invSubstSyms c (bitsToSymbols b c.n)) c.n

/-- `perm(b)` (R150, R155): `q{PERM[i]} <- b{i}`, a scatter (R152). -/
def permute (c : Store) (b : Bits) : Bits :=
  scatter false c.perm b

/-- `invperm(b)` (R151, R155): `q{INVPERM[i]} <- b{i}`. -/
def invPermute (c : Store) (b : Bits) : Bits :=
  scatter false c.invperm b

end Sys2Proof.Machine
end

