-- ==== Sys2Proof/Machine/Codec.lean ====
section
/-!
DEFINITION. The codec commands (`40_codec.md`): pure functions of their operands, admitted in
`Ready` only (R110).
-/

namespace Sys2Proof.Machine

/-- `B2S` (R111, R112): chunks of `k` bits as integers, a short last chunk right-padded with zeros. -/
def execB2s (a : Bits) (k : Nat) (s : State) : Answer :=
  whenReady s fun _ => whenWidth k s (answerOk (.syms (bitsToSymbols a k)) s)

/-- `S2B` (R113): each symbol as `k` bits; a symbol that does not fit raises RangeError. -/
def execS2b (a : Syms) (k : Nat) (s : State) : Answer :=
  whenReady s fun _ => whenWidth k s <|
    if allBelow (2 ^ k) a then answerOk (.bits (symbolsToBits a k)) s
    else answerErr .rangeError s

/-- `T2B` (R115, R116): 8 bits a character; a code point of 256 or more raises RangeError. -/
def execT2b (a : Text) (s : State) : Answer :=
  whenReady s fun _ =>
    if isByteText a then answerOk (.bits (textToBits a)) s
    else answerErr .rangeError s

/-- How a command ends that decodes text (R117 to R119, R204): the text; the empty text with `DEGEN`
set when no marker was found; LengthMismatch when the remainder is not whole characters. -/
def answerText (d : DecodedText) (s : State) : Answer :=
  match d with
  | .text t => answerOk (.text t) s
  | .noMarker => .next (complete true (some (.text [])) s)
  | .misaligned => answerErr .lengthMismatch s

/-- `B2T` (R117 to R119). -/
def execB2t (a : Bits) (s : State) : Answer :=
  whenReady s fun _ => answerText (bitsToText a) s

/-- `PAD` (R121, R124): the marker, then zeros to a multiple of `k`. -/
def execPad (a : Bits) (k : Nat) (s : State) : Answer :=
  whenReady s fun _ => whenWidth k s (answerOk (.bits (padForBlocks a k)) s)

/-- `SPLIT` (R125, R126): blocks of `k` bits, a short last block right-filled with zeros. -/
def execSplit (a : Bits) (k : Nat) (s : State) : Answer :=
  whenReady s fun _ => whenWidth k s (answerOk (.blocks (splitIntoBlocks a k)) s)

/-- `JOIN` (R127): concatenation, of members of any length. -/
def execJoin (a : Blocks) (s : State) : Answer :=
  whenReady s fun _ => answerOk (.bits (joinBlocks a)) s

/-- `XOR` (R128): of two strings of equal length; otherwise LengthMismatch. -/
def execXor (a b : Bits) (s : State) : Answer :=
  whenReady s fun _ =>
    if a.length = b.length then answerOk (.bits (xorBits a b)) s
    else answerErr .lengthMismatch s

end Sys2Proof.Machine
end

