-- ==== Sys2Proof/Machine/Layers.lean ====
section
/-!
DEFINITION. The substitution layer (`41_substitution.md`), the permutation layer
(`42_permutation.md`) and the key schedule command (`43_key_schedule.md`).
-/

namespace Sys2Proof.Machine

/-- The operand checks of `SUB` and `ISUB` in their order (R144, R142, R227): `M` symbols, each below
`2^N`. -/
def whenBlockSyms (c : Store) (a : Syms) (s : State) (run : Answer) : Answer :=
  if a.length ≠ c.m then answerErr .lengthMismatch s
  else if allBelow (2 ^ c.n) a then run
  else answerErr .rangeError s

/-- The operand check of the single-block commands (R154, R187): exactly `W` bits. -/
def whenBlock (c : Store) (a : Bits) (s : State) (run : Answer) : Answer :=
  if a.length = c.width then run else answerErr .lengthMismatch s

/-- `SUB` (R140). -/
def execSub (a : Syms) (s : State) : Answer :=
  whenReady s fun c => whenBlockSyms c a s (answerOk (.syms (substSyms c a)) s)

/-- `ISUB` (R141). -/
def execIsub (a : Syms) (s : State) : Answer :=
  whenReady s fun c => whenBlockSyms c a s (answerOk (.syms (invSubstSyms c a)) s)

/-- `PRM` (R150). -/
def execPrm (a : Bits) (s : State) : Answer :=
  whenReady s fun c => whenBlock c a s (answerOk (.bits (permute c a)) s)

/-- `IPRM` (R151). -/
def execIprm (a : Bits) (s : State) : Answer :=
  whenReady s fun c => whenBlock c a s (answerOk (.bits (invPermute c a)) s)

/-- `KGEN` (R161, R162): the round keys of the operand; a key that is too short raises
ConfigurationError, which is not fatal here. Neither `KEY` nor `RK` is read or written. -/
def execKgen (a : Bits) (s : State) : Answer :=
  whenReady s fun c =>
    if a.length < c.n * (c.m + c.r) then answerErr .configurationError s
    else answerOk (.blocks (keySchedule c.n c.m c.r a)) s

end Sys2Proof.Machine
end

