-- ==== Sys2Proof/Machine/RoundEngine.lean ====
section
/-!
DEFINITION. The round engine (`44_round_engine.md`): the state machine of R170 on `S`, `RND` and
`PHASE`, the commands `ENC` and `DEC` that run it, and the functions of R176 and R182, which no
meaning uses: statements say that the machine computes them.
-/

namespace Sys2Proof.Machine

/-! ## Micro-steps -/

/-- Initial whitening (R172). -/
def stepWhiten (c : Store) (a : Bits) (s : State) : State :=
  { s with blk := xorBits a (c.roundKeyAt 0), rnd := 0, phase := .whitened }

/-- Intermediate round `i` (R173): substitute, permute, mix. -/
def stepRound (c : Store) (i : Nat) (s : State) : State :=
  { s with
    blk := xorBits (permute c (subst c s.blk)) (c.roundKeyAt i)
    rnd := i
    phase := .round }

/-- Final round (R174): substitute, mix, no permutation. -/
def stepFinal (c : Store) (s : State) : State :=
  { s with blk := xorBits (subst c s.blk) (c.roundKeyAt c.r), rnd := c.r, phase := .finalRound }

/-- Undo the final round (R178): mix, inverse substitute. -/
def stepUnFinal (c : Store) (a : Bits) (s : State) : State :=
  { s with blk := invSubst c (xorBits a (c.roundKeyAt c.r)), rnd := c.r, phase := .unFinal }

/-- Undo intermediate round `i` (R179): mix, inverse permute, inverse substitute. -/
def stepUnRound (c : Store) (i : Nat) (s : State) : State :=
  { s with
    blk := invSubst c (invPermute c (xorBits s.blk (c.roundKeyAt i)))
    rnd := i
    phase := .unRound }

/-- Undo the whitening (R180). -/
def stepUnWhiten (c : Store) (s : State) : State :=
  { s with blk := xorBits s.blk (c.roundKeyAt 0), rnd := 0, phase := .unWhitened }

/-- One micro-step from a state that is not `IDLE`, by the table of R170; `IDLE` takes none by itself.
`PHASE` and `RND` alone decide. -/
def microStep (c : Store) (s : State) : State :=
  match s.phase with
  | .idle => s
  | .whitened | .round =>
    if s.rnd + 1 < c.r then stepRound c (s.rnd + 1) s else stepFinal c s
  | .unFinal | .unRound =>
    if 1 < s.rnd then stepUnRound c (s.rnd - 1) s else stepUnWhiten c s
  | .finalRound | .unWhitened => { s with phase := .output }   -- R175: `S` is the result
  | .output => { s with phase := .idle }                       -- R175: `S` and `RND` are kept

/-- `k` micro-steps. -/
def microSteps (c : Store) : Nat → State → State
  | 0, s => s
  | k + 1, s => microSteps c k (microStep c s)

/-- A whole encryption on the registers (R170, R171): the whitening, then `R-1` rounds, the final
round, and the two steps of R175. -/
def runEncrypt (c : Store) (a : Bits) (s : State) : State :=
  microSteps c (c.r + 2) (stepWhiten c a s)

/-- A whole decryption on the registers (R170, R177). -/
def runDecrypt (c : Store) (a : Bits) (s : State) : State :=
  microSteps c (c.r + 2) (stepUnFinal c a s)

/-! ## Commands -/

/-- `ENC` (R171, R187): the response carries `S`, which the steps after `OUTPUT` keep (R175). -/
def execEnc (a : Bits) (s : State) : Answer :=
  whenReady s fun c => whenBlock c a s <|
    let t := runEncrypt c a s
    answerOk (.bits t.blk) t

/-- `DEC` (R177, R187). -/
def execDec (a : Bits) (s : State) : Answer :=
  whenReady s fun c => whenBlock c a s <|
    let t := runDecrypt c a s
    answerOk (.bits t.blk) t

/-! ## The same as functions -/

/-- One intermediate round as a function (R176). -/
def encRound (c : Store) (b : Bits) (i : Nat) : Bits :=
  xorBits (permute c (subst c b)) (c.roundKeyAt i)

/-- `enc(x)` (R176): whiten, rounds `1 … R-1`, final round. -/
def encBlock (c : Store) (x : Bits) : Bits :=
  let b := (List.range' 1 (c.r - 1)).foldl (encRound c) (xorBits x (c.roundKeyAt 0))
  xorBits (subst c b) (c.roundKeyAt c.r)

/-- One undone round as a function (R182). -/
def decRound (c : Store) (b : Bits) (i : Nat) : Bits :=
  invSubst c (invPermute c (xorBits b (c.roundKeyAt i)))

/-- `dec(y)` (R182): undo the final round, rounds `R-1 … 1`, undo the whitening. -/
def decBlock (c : Store) (y : Bits) : Bits :=
  let b := (List.range' 1 (c.r - 1)).reverse.foldl (decRound c)
    (invSubst c (xorBits y (c.roundKeyAt c.r)))
  xorBits b (c.roundKeyAt 0)

end Sys2Proof.Machine
end

