-- ==== Sys2Proof/Machine/Ctr.lean ====
section
/-!
DEFINITION. The CTR stream driver and the message pipeline (`45_ctr.md`): `CTRX`, `CTRE`, `MENC`,
`MDEC`, on the registers `IV`, `CNT`, `IDX` and the round engine's.
-/

namespace Sys2Proof.Machine

/-- The payload loop (R193, R194): from index `i` on, for `k` blocks in ascending order, set `IDX` and
`CNT`, encrypt `CNT`, and write the block of the stream mixed with the keystream. -/
def ctrLoop (c : Store) (stream : Blocks) : Nat → Nat → Blocks → State → Blocks × State
  | 0, _, out, s => (out, s)
  | k + 1, i, out, s =>
    let cnt := counter c.width s.iv i
    let t := runEncrypt c cnt { s with idx := i, cnt := cnt }
    ctrLoop c stream k (i + 1) (memWrite out (xorBits (memRead stream i) t.blk)) t

/-- A whole CTR pass over a stream whose block 0 is the IV (R193, R194): write `IV`, run the payload,
`IDX <- 0`. `out` is the output written before the payload. -/
def ctrRun (c : Store) (stream : Blocks) (out : Blocks) (s : State) : Blocks × State :=
  let r := ctrLoop c stream (stream.length - 1) 1 out { s with iv := memRead stream 0 }
  (r.1, { r.2 with idx := 0 })

/-- `CTRX` (R193, R199, R200): the stream `C[0..N]`, all of it checked first; result `P[1..N]`. -/
def execCtrx (a : Blocks) (s : State) : Answer :=
  whenReady s fun c =>
    if a.length = 0 then answerErr .lengthMismatch s
    else if allOfWidth c.width a then
      let r := ctrRun c a [] s
      answerOk (.blocks r.1) r.2
    else answerErr .lengthMismatch s

/-- `CTRE` (R196, R199): the IV `b` and the payload `P[1..N]`; result `C[0..N]` with `C[0] = b`. -/
def execCtre (b : Bits) (a : Blocks) (s : State) : Answer :=
  whenReady s fun c =>
    if b.length ≠ c.width then answerErr .lengthMismatch s
    else if allOfWidth c.width a then
      let r := ctrRun c (b :: a) [b] s
      answerOk (.blocks r.1) r.2
    else answerErr .lengthMismatch s

/-- `MENC` (R203): text to bits, pad, split, CTR with the IV `b`, join. The IV's width is checked
before the code points (R227). -/
def execMenc (a : Text) (b : Bits) (s : State) : Answer :=
  whenReady s fun c =>
    if b.length ≠ c.width then answerErr .lengthMismatch s
    else if isByteText a then
      let p := padForBlocks (textToBits a) c.width
      let r := ctrRun c (b :: splitIntoBlocks p c.width) [b] s
      answerOk (.bits (joinBlocks r.1)) r.2
    else answerErr .rangeError s

/-- `MDEC` (R204, R206): split with zero fill, CTR, join, bits to text. The text stage's LengthMismatch
comes after the CTR stage has used its registers (R229); they stay as it left them (log 8). -/
def execMdec (a : Bits) (s : State) : Answer :=
  whenReady s fun c =>
    let stream := splitIntoBlocks a c.width
    if stream.length = 0 then answerErr .lengthMismatch s
    else
      let r := ctrRun c stream [] s
      answerText (bitsToText (joinBlocks r.1)) r.2

/-! ## The same as functions, which no meaning uses: statements say that the machine computes them -/

/-- The CTR contract as a function (R190, R192): payload block `i` (1-based) of the stream mixed with
`enc(counter(v, i))`. -/
def ctrTransform (c : Store) (v : Bits) (p : Blocks) : Blocks :=
  p.mapIdx fun i x => xorBits x (encBlock c (counter c.width v (i + 1)))

/-- `MENC` as a function of an in-range text and a `W`-bit IV (R203). -/
def encodeMessage (c : Store) (y : Text) (v : Bits) : Bits :=
  joinBlocks (v :: ctrTransform c v (splitIntoBlocks (padForBlocks (textToBits y) c.width) c.width))

/-- `MDEC` as a function of a ciphertext that is not empty (R204, R206). -/
def decodeMessage (c : Store) (a : Bits) : DecodedText :=
  let stream := splitIntoBlocks a c.width
  bitsToText (joinBlocks (ctrTransform c (memRead stream 0) stream.tail))

end Sys2Proof.Machine
end

