-- ==== Sys2Proof/Machine/SystemCmd.lean ====
section
/-!
DEFINITION. The system commands `CFG` and `STAT` (`46_system.md`).
-/

namespace Sys2Proof.Machine

/-- What a successful `CFG` writes into the configuration store (R210, R212): the sizes, the tables,
their inverses derived at once (R30, R32), the first `m+r` key symbols and the round keys. Table
entries beyond the configured size do not exist: `valid` has checked the lengths. -/
def storeOf (n m r : Nat) (sbox perm : Syms) (key : Bits) : Store where
  n := n
  m := m
  r := r
  key := keySymbols n m r key
  rk := keySchedule n m r key
  sbox := sbox
  invsbox := invertTable sbox
  perm := perm
  invperm := invertTable perm

/-- `CFG` (R210 to R214): only in `Unconfigured`; refused operands are fatal; otherwise the store is
written and the core is `Ready`. -/
def execCfg (n m r : Nat) (sbox perm : Syms) (key : Bits) (s : State) : Answer :=
  match s.engine with
  | .unconfigured =>
    if cfgValid n m r sbox perm key then
      .next (complete false none { s with engine := .ready (storeOf n m r sbox perm key) })
    else .next (raiseFatal s)
  | _ => answerErr .illegalCommand s

/-- `STAT` (R215, R96): the response carries `STATUS` and its `DEGEN` bit; nothing else changes, not
even `ERR` or `DEGEN`. -/
def execStat (s : State) : Answer :=
  .next { s with response := some ⟨none, s.degen, some (.status (statusWord s))⟩ }

end Sys2Proof.Machine
end

