-- ==== Sys2Proof/Machine/Dispatch.lean ====
section
/-!
DEFINITION. One arm per command of the opcode table (`30_encoding.md` R89), each one call of its meaning.
-/

namespace Sys2Proof.Machine

def exec (i : Instr) (s : State) : Host.Outcome State Fault Refusal :=
  match i with
  | .cfg n m r sbox perm key => Sys2Proof.Machine.execCfg n m r sbox perm key s
  | .stat => Sys2Proof.Machine.execStat s
  | .b2s a k => Sys2Proof.Machine.execB2s a k s
  | .s2b a k => Sys2Proof.Machine.execS2b a k s
  | .t2b a => Sys2Proof.Machine.execT2b a s
  | .b2t a => Sys2Proof.Machine.execB2t a s
  | .pad a k => Sys2Proof.Machine.execPad a k s
  | .split a k => Sys2Proof.Machine.execSplit a k s
  | .join a => Sys2Proof.Machine.execJoin a s
  | .xor a b => Sys2Proof.Machine.execXor a b s
  | .sub a => Sys2Proof.Machine.execSub a s
  | .isub a => Sys2Proof.Machine.execIsub a s
  | .prm a => Sys2Proof.Machine.execPrm a s
  | .iprm a => Sys2Proof.Machine.execIprm a s
  | .kgen a => Sys2Proof.Machine.execKgen a s
  | .enc a => Sys2Proof.Machine.execEnc a s
  | .dec a => Sys2Proof.Machine.execDec a s
  | .ctrx a => Sys2Proof.Machine.execCtrx a s
  | .ctre b a => Sys2Proof.Machine.execCtre b a s
  | .menc a b => Sys2Proof.Machine.execMenc a b s
  | .mdec a => Sys2Proof.Machine.execMdec a s

end Sys2Proof.Machine
end

