-- ==== Sys2Proof/Decode.lean ====
section
/-!
DEFINITION. The decoder of commands (`30_encoding.md` R88 to R91, R93), total on every opcode byte,
and the encoder written from the same table. A decoder matches all eight bits (R90); every opcode
that is not one of the 21 is rejected by name (R91 (a)).
-/

namespace Sys2Proof

/-- What the decoder reads from a command: an instruction, or the rejection of an opcode that R90
does not define. -/
inductive Decoded where
  | instr (i : Instr)
  | undefinedOpcode (op : Opcode)
  deriving DecidableEq, Repr

/-- The 21 defined opcodes (R90). -/
def definedOpcodes : List Opcode :=
  [0x01, 0x02, 0x10, 0x11, 0x12, 0x13, 0x14, 0x15, 0x16, 0x17,
   0x20, 0x21, 0x22, 0x23, 0x24, 0x30, 0x31, 0x40, 0x41, 0x42, 0x43]

/-- The decoder (R89, R90): the opcode selects the command, whose operands are read from its ports. -/
def decode (c : Command) : Decoded :=
  let p := c.ports
  match c.op with
  | 0x01#8 => .instr (.cfg p.n p.m p.r p.sbox p.perm p.key)
  | 0x02#8 => .instr .stat
  | 0x10#8 => .instr (.b2s p.aBits p.k)
  | 0x11#8 => .instr (.s2b p.aSyms p.k)
  | 0x12#8 => .instr (.t2b p.aText)
  | 0x13#8 => .instr (.b2t p.aBits)
  | 0x14#8 => .instr (.pad p.aBits p.k)
  | 0x15#8 => .instr (.split p.aBits p.k)
  | 0x16#8 => .instr (.join p.aBlocks)
  | 0x17#8 => .instr (.xor p.aBits p.b)
  | 0x20#8 => .instr (.sub p.aSyms)
  | 0x21#8 => .instr (.isub p.aSyms)
  | 0x22#8 => .instr (.prm p.aBits)
  | 0x23#8 => .instr (.iprm p.aBits)
  | 0x24#8 => .instr (.kgen p.aBits)
  | 0x30#8 => .instr (.enc p.aBits)
  | 0x31#8 => .instr (.dec p.aBits)
  | 0x40#8 => .instr (.ctrx p.aBlocks)
  | 0x41#8 => .instr (.ctre p.b p.aBlocks)
  | 0x42#8 => .instr (.menc p.aText p.b)
  | 0x43#8 => .instr (.mdec p.aBits)
  | op => .undefinedOpcode op

/-- The encoder (R89, R90): the command's opcode, its operands on their ports, nothing on the others. -/
def encode : Instr → Command
  | .cfg n m r sbox perm key => ⟨0x01, { n := n, m := m, r := r, sbox := sbox, perm := perm, key := key }⟩
  | .stat => ⟨0x02, {}⟩
  | .b2s a k => ⟨0x10, { aBits := a, k := k }⟩
  | .s2b a k => ⟨0x11, { aSyms := a, k := k }⟩
  | .t2b a => ⟨0x12, { aText := a }⟩
  | .b2t a => ⟨0x13, { aBits := a }⟩
  | .pad a k => ⟨0x14, { aBits := a, k := k }⟩
  | .split a k => ⟨0x15, { aBits := a, k := k }⟩
  | .join a => ⟨0x16, { aBlocks := a }⟩
  | .xor a b => ⟨0x17, { aBits := a, b := b }⟩
  | .sub a => ⟨0x20, { aSyms := a }⟩
  | .isub a => ⟨0x21, { aSyms := a }⟩
  | .prm a => ⟨0x22, { aBits := a }⟩
  | .iprm a => ⟨0x23, { aBits := a }⟩
  | .kgen a => ⟨0x24, { aBits := a }⟩
  | .enc a => ⟨0x30, { aBits := a }⟩
  | .dec a => ⟨0x31, { aBits := a }⟩
  | .ctrx a => ⟨0x40, { aBlocks := a }⟩
  | .ctre b a => ⟨0x41, { b := b, aBlocks := a }⟩
  | .menc a b => ⟨0x42, { aText := a, b := b }⟩
  | .mdec a => ⟨0x43, { aBits := a }⟩

/-- The command of one table row (R88, R93): the row's 8 bits are the opcode byte, and every operand
port is empty or zero. No command has another length. DESIGN CHOICE, safe (log 18). -/
def tableCommand (nbits w : Nat) : Option Command :=
  if nbits ≤ 8 ∧ w < 2 ^ 8 then some ⟨BitVec.ofNat 8 w, {}⟩ else none

/-- What the decoder reads from a row of `spec/opcode_table.json` whose bits are `w`. -/
def decodeTableWord (nbits w : Nat) : Option Instr :=
  match tableCommand nbits w with
  | none => none
  | some c =>
    match decode c with
    | .instr i => some i
    | .undefinedOpcode _ => none

/-- The pseudo-command `CFGREF` (R95): construction of the reference instantiation with a given key. -/
def cfgRef (key : Bits) : Instr :=
  .cfg Config.refSize Config.refSize Config.refSize Config.refSBox Config.refPerm key

/-- The pseudo-command `CTRD` (R95): another name for `CTRX`. -/
def ctrd (a : Blocks) : Instr :=
  .ctrx a

end Sys2Proof
end

