-- ==== Sys2Proof/Machine/Fetch.lean ====
section
/-!
DEFINITION. How the core takes its next event from the host (`30_encoding.md` R88, R91 (a);
`70_reset_and_hazards.md` R250, R251): the counterpart of an instruction fetch in a core that has no
instruction memory (`20_memory.md` R52).
-/

namespace Sys2Proof.Machine

/-- What the next event asks of the core, with the state after the event was taken. -/
inductive Fetched where
  /-- No event: the core waits (R251). -/
  | wait
  /-- A command that decodes. -/
  | run (i : Instr) (s : State)
  /-- Anything that needs no instruction: a reset, or the rejection of an undefined opcode. -/
  | done (s : State)
  deriving DecidableEq, Repr

/-- Reset (R250): every piece of the core's state goes to its value after reset, and a command in
progress gets no response. The events the host has still to deliver are not the core's to lose
(log 1, log 7). -/
def resetTo (rest : List HostEvent) : State :=
  { State.reset with pending := rest }

/-- Take the oldest pending event. An undefined opcode raises IllegalCommand and does nothing else
(R91 (a)), in every lifecycle state. -/
def fetch (s : State) : Fetched :=
  match s.pending with
  | [] => .wait
  | .reset :: rest => .done (resetTo rest)
  | .cutShort _ :: rest => .done (resetTo rest)
  | .command c :: rest =>
    match decode c with
    | .instr i => .run i { s with pending := rest }
    | .undefinedOpcode _ => .done (raiseErr .illegalCommand { s with pending := rest })

/-- `s` with a table row's command as the next event. -/
def placeTableWord (s : State) (nbits w : Nat) : State :=
  match tableCommand nbits w with
  | some c => { s with pending := .command c :: s.pending }
  | none => s

end Sys2Proof.Machine
end

