-- ==== Sys2Proof/Machine/Step.lean ====
section
/-!
DEFINITION. One step of the core: take the host's next event and act on it. A command is atomic
(`30_encoding.md` R88), so it is one step.
-/

namespace Sys2Proof.Machine

/-- One step. With no event pending the core waits and keeps its state (R239, R251; log 6). -/
def step (s : State) : Host.Outcome State Fault Refusal :=
  match fetch s with
  | .wait => .next s
  | .done t => .next t
  | .run i t => exec i t

/-- `s` with the command of a table row placed as the host's next event, so that the very next step
runs it (log 1, log 18). Nothing else changes. -/
def State.withFetchWord (s : State) (nbits w : Nat) : State :=
  placeTableWord s nbits w

end Sys2Proof.Machine
end

