-- ==== Sys2Proof/Safety.lean ====
section
/-!
DEFINITION. The terms the claims use: a store as `CFG` makes it, the invariant of the machine, what
"the command completed" and "the command raised an error" say of the state after it, and the registers
a CTR command leaves.
-/

namespace Sys2Proof.Machine

/-! ## A valid store -/

/-- The invariants of the configuration store (R21, R27 to R32): positive sizes; tables of the
configured sizes that are bijections, with their inverses; key symbols in range; round key `i` the
window of `m` key symbols from symbol `i` on. -/
structure Store.Valid (c : Store) : Prop where
  n_pos : 1 ≤ c.n
  m_pos : 1 ≤ c.m
  r_pos : 1 ≤ c.r
  key_length : c.key.length = c.m + c.r
  key_range : ∀ x ∈ c.key, x < 2 ^ c.n
  rk_length : c.rk.length = c.r + 1
  rk_window : ∀ i ≤ c.r, c.rk[i]? = some (symbolsToBits ((c.key.drop i).take c.m) c.n)
  sbox_bijection : isBijection c.sbox (2 ^ c.n) = true
  invsbox_length : c.invsbox.length = 2 ^ c.n
  invsbox_inverts : ∀ x < 2 ^ c.n, tableAt c.invsbox (tableAt c.sbox x) = x
  perm_bijection : isBijection c.perm c.width = true
  invperm_length : c.invperm.length = c.width
  invperm_inverts : ∀ i < c.width, tableAt c.invperm (tableAt c.perm i) = i

/-- The construction operands that `CFG` accepts (R211, items 1 to 4). -/
structure CfgAccepts (n m r : Nat) (sbox perm : Syms) (key : Bits) : Prop where
  n_pos : 1 ≤ n
  m_pos : 1 ≤ m
  r_pos : 1 ≤ r
  sbox_length : sbox.length = 2 ^ n
  sbox_range : ∀ x ∈ sbox, x < 2 ^ n
  sbox_distinct : sbox.Nodup
  perm_length : perm.length = n * m
  perm_range : ∀ x ∈ perm, x < n * m
  perm_distinct : perm.Nodup
  key_length : n * (m + r) ≤ key.length

/-! ## The properties the spec derives

Each is a property of the functions of `Machine/`; `Laws/Properties.lean` proves it, of every width or of
every valid store, and an obligation states it beside the same property of the commands. -/

/-- The round trips of `B2S` and `S2B` (R114): with the zero fill for any length, exactly for a multiple
of `k`, and exactly for in-range symbols. -/
def SymbolsInvert (k : Nat) : Prop :=
  (∀ b : Bits, symbolsToBits (bitsToSymbols b k) k = b ++ zeros ((k - b.length % k) % k)) ∧
  (∀ b : Bits, k ∣ b.length → symbolsToBits (bitsToSymbols b k) k = b) ∧
  ∀ y : Syms, (∀ x ∈ y, x < 2 ^ k) → bitsToSymbols (symbolsToBits y k) k = y

/-- The padding round trip (R123): `B2T` of `PAD` of `T2B` gives the text, a marker found. -/
def PaddingInverts (w : Nat) : Prop :=
  ∀ y : Text, (∀ x ∈ y, x < 256) → bitsToText (padForBlocks (textToBits y) w) = .text y

/-- The inverse property of the substitution layer (R143), on entries and on blocks of symbols. -/
def Store.SubstitutionInverts (c : Store) : Prop :=
  (∀ x < 2 ^ c.n, tableAt c.invsbox (tableAt c.sbox x) = x ∧
    tableAt c.sbox (tableAt c.invsbox x) = x) ∧
  ∀ a : Syms, a.length = c.m → (∀ x ∈ a, x < 2 ^ c.n) →
    invSubstSyms c (substSyms c a) = a ∧ substSyms c (invSubstSyms c a) = a

/-- The inverse property of the permutation layer (R153), on positions and on blocks. -/
def Store.PermutationInverts (c : Store) : Prop :=
  (∀ i < c.width, tableAt c.invperm (tableAt c.perm i) = i ∧
    tableAt c.perm (tableAt c.invperm i) = i) ∧
  ∀ a : Bits, a.length = c.width →
    invPermute c (permute c a) = a ∧ permute c (invPermute c a) = a

/-- The round trip of the block cipher (R183): `dec(enc(x)) = x` and `enc(dec(x)) = x` for every block,
whatever its content. -/
def Store.RoundTrips (c : Store) : Prop :=
  ∀ x : Bits, x.length = c.width → decBlock c (encBlock c x) = x ∧ encBlock c (decBlock c x) = x

/-- The symmetry of CTR (R197): the same transform undoes itself. -/
def Store.CtrInverts (c : Store) : Prop :=
  ∀ (v : Bits) (p : Blocks), (∀ b ∈ v :: p, b.length = c.width) →
    ctrTransform c v (ctrTransform c v p) = p

/-- Keystream independence (R66, R202): a difference `d` in payload block `i` of the input is a
difference `d` in block `i` of the output and none elsewhere. -/
def Store.KeystreamIndependent (c : Store) : Prop :=
  ∀ (v : Bits) (p : Blocks) (i : Nat) (x d : Bits), p[i]? = some x →
    ∃ y, (ctrTransform c v p)[i]? = some y ∧
      ctrTransform c v (p.set i (xorBits x d)) = (ctrTransform c v p).set i (xorBits y d)

/-- The message round trip (R205). -/
def Store.MessagesInvert (c : Store) : Prop :=
  ∀ (y : Text) (v : Bits), v.length = c.width → (∀ x ∈ y, x < 256) →
    decodeMessage c (encodeMessage c y v) = .text y

/-! ## The invariant of the machine -/

/-- A block register of a `Ready` core: never written since reset (log 3), or exactly `w` bits. -/
def FitsBlock (w : Nat) (b : Bits) : Prop :=
  b = [] ∨ b.length = w

/-- The datapath registers have the configured sizes (R33, R34, R36 to R38); before a configuration
they are as reset left them: `RND` is 0 (R44), and `S`, `IV` and `CNT` are empty, which is the model's
choice (log 3). -/
def State.DatapathFits (s : State) : Prop :=
  match s.engine with
  | .ready c =>
    FitsBlock c.width s.blk ∧ FitsBlock c.width s.iv ∧ FitsBlock c.width s.cnt ∧ s.rnd ≤ c.r
  | _ => s.blk = [] ∧ s.iv = [] ∧ s.cnt = [] ∧ s.rnd = 0

/-- What holds of the machine between two steps: the engine is idle (R36, R39), a store in `Ready` is
valid, the datapath fits it, and the sticky records hold what the last command reported and what made
the core `Failed` (R22, R25, R26). -/
structure State.Inv (s : State) : Prop where
  idle : s.phase = .idle
  idx_zero : s.idx = 0
  store_valid : ∀ c, s.engine = .ready c → c.Valid
  datapath_fits : s.DatapathFits
  err_recorded : ∀ e, s.err = some e → s.seen &&& seenMask e = seenMask e
  degen_recorded : s.degen = true → s.dseen = true
  failure_recorded :
    s.engine = .failed → s.seen &&& seenMask .configurationError = seenMask .configurationError

/-- No error has been raised since reset (R25: "no fault recorded" as a single premise). -/
def State.NoErrorSeen (s : State) : Prop :=
  s.seen = 0

/-! ## What a command did -/

/-- The core is not `Ready`. -/
def State.NotReady (s : State) : Prop :=
  ∀ c, s.engine ≠ .ready c

/-- The datapath registers of the two states are the same. -/
structure SameDatapath (s t : State) : Prop where
  blk : t.blk = s.blk
  rnd : t.rnd = s.rnd
  phase : t.phase = s.phase
  iv : t.iv = s.iv
  cnt : t.cnt = s.cnt
  idx : t.idx = s.idx

/-- `t` reports that the command completed with result `q` (R24 to R26, R96): `ERR = 0`, `DEGEN = d`,
recorded in `DSEEN`, `SEEN` as before, the response; lifecycle, store and pending events as before. -/
structure Completed (s t : State) (q : Result) (d : Bool) : Prop where
  response : t.response = some ⟨none, d, some q⟩
  err : t.err = none
  degen : t.degen = d
  dseen : t.dseen = (s.dseen || d)
  seen : t.seen = s.seen
  engine : t.engine = s.engine
  pending : t.pending = s.pending

/-- `t` reports that the command raised `e` (R228): the code, the `SEEN` bit, `DEGEN = 0`, the engine
idle, the response without a result; pending events as before. -/
structure Reported (s t : State) (e : ErrClass) : Prop where
  response : t.response = some ⟨some e, false, none⟩
  err : t.err = some e
  degen : t.degen = false
  dseen : t.dseen = s.dseen
  seen : t.seen = s.seen ||| seenMask e
  phase : t.phase = .idle
  idx : t.idx = 0
  pending : t.pending = s.pending

/-- The command raises `e` and changes nothing else (R228, R229): lifecycle, store, `S`, `RND`, `IV`
and `CNT` as before. -/
def Raises (i : Instr) (s : State) (e : ErrClass) : Prop :=
  ∃ t, exec i s = .next t ∧ Reported s t e ∧
    t.engine = s.engine ∧ t.blk = s.blk ∧ t.rnd = s.rnd ∧ t.iv = s.iv ∧ t.cnt = s.cnt

/-! ## CTR -/

/-- The keystream of `k` payload blocks (R192): `enc(counter(iv, 1)) ++ … ++ enc(counter(iv, k))`. -/
def keystream (c : Store) (iv : Bits) (k : Nat) : Bits :=
  (List.range k).flatMap fun j => encBlock c (counter c.width iv (j + 1))

/-- The datapath after a CTR command on `k` payload blocks (R193, R194, R200): `IV` written, `IDX = 0`;
with a payload, `CNT` is the last counter and the engine has encrypted it; without one, the round
engine was not used. -/
structure CtrRegisters (c : Store) (s t : State) (v : Bits) (k : Nat) : Prop where
  iv : t.iv = v
  idx : t.idx = 0
  payload : 0 < k → t.cnt = counter c.width v k ∧ t.blk = encBlock c t.cnt ∧ t.rnd = c.r ∧
    t.phase = .idle
  no_payload : k = 0 → t.cnt = s.cnt ∧ t.blk = s.blk ∧ t.rnd = s.rnd ∧ t.phase = s.phase

end Sys2Proof.Machine
end

