-- ==== Sys2Proof/WellFormed.lean ====
section
/-!
DEFINITION. Which commands some configured core could complete, judged from the command alone: the
operand checks of the spec that do not depend on the configuration. The core itself does not use
this predicate: it checks its operands when it runs the command and answers with the error the spec
names (R220), so an ill-formed command also has its meaning (log 17).
-/

namespace Sys2Proof

open Machine

/-- The configuration-independent operand checks, command by command. Where a command's checks all
depend on the configured sizes (`SUB`, `PRM`, `ENC`, …) there is nothing to check here. -/
def Instr.wellFormed : Instr → Bool
  | .cfg n m r sbox perm key => cfgValid n m r sbox perm key          -- R211
  | .stat => true
  | .b2s _ k => decide (0 < k)                                        -- R129
  | .s2b a k => decide (0 < k) && allBelow (2 ^ k) a                  -- R129, R113
  | .t2b a => isByteText a                                            -- R116
  | .b2t a => decide (bitsToText a ≠ .misaligned)                     -- R119
  | .pad _ k => decide (0 < k)                                        -- R129
  | .split _ k => decide (0 < k)                                      -- R129
  | .join _ => true
  | .xor a b => a.length == b.length                                  -- R128
  | .sub _ => true
  | .isub _ => true
  | .prm _ => true
  | .iprm _ => true
  | .kgen _ => true
  | .enc _ => true
  | .dec _ => true
  | .ctrx a => !a.isEmpty                                             -- R199 (a)
  | .ctre _ _ => true
  | .menc a _ => isByteText a                                         -- R203, R116
  | .mdec a => !a.isEmpty                                             -- R204

end Sys2Proof
end

