-- ==== Sys2Proof/Certificates/Slice0/Obligations.lean ====
section
/-!
DEFINITION. The statements for the provers. Each docstring names the rule of the spec it formalises.
A statement about a command covers every lifecycle state and every operand; where it needs the store
to be as `CFG` makes it, it takes `Store.Valid` as a premise, and `InvariantKeptByEveryStep` says that
every store of a run is so.
-/

open Sys2Proof Sys2Proof.Machine

/-! ## Encoding and step -/

/-- R89, R90, R91 (a): decoding an encoded command gives it back, whatever its operands; a command
decodes only from its own opcode; an opcode is rejected, by name, exactly when R90 does not list it. -/
def Obligations.DecodeAndEncodeAgree : Prop :=
  (∀ i : Instr, decode (encode i) = .instr i) ∧
  (∀ (c : Command) (i : Instr), decode c = .instr i → (encode i).op = c.op) ∧
  (∀ i : Instr, (encode i).op ∈ definedOpcodes) ∧
  (∀ c : Command, c.op ∉ definedOpcodes ↔ decode c = .undefinedOpcode c.op)

/-- R89, R90, R91 (a): opcode bytes as the table writes them. -/
def Obligations.OpcodeBytesDecode : Prop :=
  decode ⟨0b00000010, {}⟩ = .instr .stat ∧
  decode ⟨0b00010001, { aSyms := [11, 2], k := 4 }⟩ = .instr (.s2b [11, 2] 4) ∧
  decode ⟨0b00010111, { aBits := [true], b := [false] }⟩ = .instr (.xor [true] [false]) ∧
  decode ⟨0b00100011, { aBits := [true] }⟩ = .instr (.iprm [true]) ∧
  decode ⟨0b00110001, { aBits := [true] }⟩ = .instr (.dec [true]) ∧
  decode ⟨0b01000001, { b := [true], aBlocks := [[false]] }⟩ = .instr (.ctre [true] [[false]]) ∧
  decodeTableWord 8 0b00110000 = some (.enc []) ∧
  decodeTableWord 8 0b00011000 = none ∧
  decode ⟨0b00000000, {}⟩ = .undefinedOpcode 0x00 ∧
  decode ⟨0b11111111, {}⟩ = .undefinedOpcode 0xFF

/-- R88: when the next event is a command that decodes to `i`, the step is `exec i` on the state from
which the event has been taken. -/
def Obligations.StepRunsDecodedCommand : Prop :=
  ∀ (s : State) (c : Command) (rest : List HostEvent) (i : Instr),
    s.pending = .command c :: rest → decode c = .instr i →
      step s = exec i { s with pending := rest }

/-- R91 (a): an undefined opcode raises IllegalCommand in every lifecycle state and does nothing else. -/
def Obligations.UndefinedOpcodeIsIllegal : Prop :=
  ∀ (s : State) (c : Command) (rest : List HostEvent),
    s.pending = .command c :: rest → c.op ∉ definedOpcodes →
      ∃ t, step s = .next t ∧ Reported { s with pending := rest } t .illegalCommand ∧
        t.engine = s.engine ∧ t.blk = s.blk ∧ t.rnd = s.rnd ∧ t.iv = s.iv ∧ t.cnt = s.cnt

/-- R250, 93 X6: a reset, also one that cuts a command short, puts the core to its state after reset;
the cut command gets no response. -/
def Obligations.ResetEventResetsCore : Prop :=
  ∀ (s : State) (rest : List HostEvent),
    (s.pending = .reset :: rest ∨ ∃ c, s.pending = .cutShort c :: rest) →
      ∃ t, step s = .next t ∧ t.engine = .unconfigured ∧ statusWord t = 0 ∧ t.phase = .idle ∧
        t.rnd = 0 ∧ t.idx = 0 ∧ t.response = none ∧ t.pending = rest

/-- R251, R239; the model's reading of waiting is log 6: with no event the core keeps its state. -/
def Obligations.CoreWaitsWithoutEvent : Prop :=
  ∀ s : State, s.pending = [] → step s = .next s

/-- R44, the values the spec gives for reset. -/
def Obligations.ResetValues : Prop :=
  State.reset.engine = .unconfigured ∧ lifeCode State.reset.engine = 0 ∧
  State.reset.err = none ∧ State.reset.degen = false ∧ State.reset.dseen = false ∧
  State.reset.seen = 0 ∧ statusWord State.reset = 0 ∧ State.reset.rnd = 0 ∧
  phaseCode State.reset.phase = 0 ∧ State.reset.idx = 0

/-! ## Whole machine -/

/-- The invariant holds after reset (R44). Its clause that `S`, `IV` and `CNT` are empty before a
configuration is the model's choice, not R44's: R44 leaves the three unspecified (log 3). -/
def Obligations.InvariantHoldsAtReset : Prop :=
  State.reset.Inv

/-- Every step keeps the invariant: the engine is idle between commands (R36, R39), the store of a
`Ready` core is valid (R28 to R32, R212), the datapath has its sizes (R33, R34, R37, R38), and the
sticky records cover what was reported (R25, R26). That `S`, `IV` and `CNT` are empty until first
written (in a `Ready` core each may still be) is the model's choice of reset values (log 3). -/
def Obligations.InvariantKeptByEveryStep : Prop :=
  ∀ s t : State, s.Inv → step s = .next t → t.Inv

/-- R8, R96, R226, R262: no command faults or is refused, in any state: each answers a next state with
a response. -/
def Obligations.EveryCommandAnswers : Prop :=
  ∀ (i : Instr) (s : State), ∃ t r, exec i s = .next t ∧ t.response = some r

/-- R92: the admission table. What is not admitted raises IllegalCommand; what is admitted never does,
but for a zero width, which R129 makes illegal in the same way; `STAT` is admitted everywhere. -/
def Obligations.LifecycleAdmission : Prop :=
  (∀ (i : Instr) (s : State), s.NotReady → i ≠ .stat →
    (∀ n m r sbox perm key, i ≠ .cfg n m r sbox perm key) → Raises i s .illegalCommand) ∧
  (∀ (s : State) n m r sbox perm key, s.engine ≠ .unconfigured →
    Raises (.cfg n m r sbox perm key) s .illegalCommand) ∧
  (∀ (i : Instr) (s t : State) (c : Store), s.engine = .ready c → i ≠ .stat →
    (∀ n m r sbox perm key, i ≠ .cfg n m r sbox perm key) →
    (∀ a, i ≠ .b2s a 0) → (∀ a, i ≠ .s2b a 0) → (∀ a, i ≠ .pad a 0) → (∀ a, i ≠ .split a 0) →
    exec i s = .next t → t.err ≠ some .illegalCommand) ∧
  (∀ (s t : State) n m r sbox perm key, s.engine = .unconfigured →
    exec (.cfg n m r sbox perm key) s = .next t → t.err ≠ some .illegalCommand) ∧
  (∀ s : State, ∃ t r, exec .stat s = .next t ∧ t.response = some r ∧ r.err = none)

/-- R40: no command but `CFG` writes the configuration store, `CFG` is accepted only in `Unconfigured`,
and no step changes the store or leaves `Ready` or `Failed` but one that takes a reset event, also one
that cuts a command short (R22, R231). -/
def Obligations.StoreIsImmutable : Prop :=
  (∀ (i : Instr) (s t : State), (∀ n m r sbox perm key, i ≠ .cfg n m r sbox perm key) →
    exec i s = .next t → t.engine = s.engine) ∧
  (∀ (s : State) n m r sbox perm key, s.engine ≠ .unconfigured →
    Raises (.cfg n m r sbox perm key) s .illegalCommand) ∧
  (∀ s t : State, s.engine ≠ .unconfigured → step s = .next t →
    t.engine = s.engine ∨
      ∃ rest, (s.pending = .reset :: rest ∨ ∃ c, s.pending = .cutShort c :: rest) ∧
        t = { State.reset with pending := rest })

/-- R228: what raising an error does, for every command that ends with an error code, and for an
undefined opcode. -/
def Obligations.RaiseDoesWhatR228Says : Prop :=
  (∀ (i : Instr) (s t : State) (e : ErrClass), i ≠ .stat → exec i s = .next t → t.err = some e →
    Reported s t e ∧
    (e = .configurationError → (∃ n m r sbox perm key, i = .cfg n m r sbox perm key) →
      t.engine = .failed) ∧
    (¬(e = .configurationError ∧ ∃ n m r sbox perm key, i = .cfg n m r sbox perm key) →
      t.engine = s.engine)) ∧
  (∀ (s t : State) (c : Command) (rest : List HostEvent), s.pending = .command c :: rest →
    c.op ∉ definedOpcodes → step s = .next t →
      Reported { s with pending := rest } t .illegalCommand ∧ t.engine = s.engine)

/-- R229: an error leaves `S`, `RND`, `IV` and `CNT` as they were and gives no result; the one late
error, of `MDEC`, may have used those registers. -/
def Obligations.ErrorsLeaveDatapath : Prop :=
  ∀ (i : Instr) (s t : State) (e : ErrClass), i ≠ .stat → (∀ a, i ≠ .mdec a) →
    exec i s = .next t → t.err = some e →
      t.blk = s.blk ∧ t.rnd = s.rnd ∧ t.iv = s.iv ∧ t.cnt = s.cnt

/-- R24, R25, R26: `SEEN` collects the class of every error and loses none, `DSEEN` collects `DEGEN`,
`DEGEN` is set by `B2T` and `MDEC` only; `STAT` writes none of them. -/
def Obligations.StickyRecords : Prop :=
  (∀ (i : Instr) (s t : State), i ≠ .stat → exec i s = .next t →
    (∀ e, t.err = some e → t.seen = s.seen ||| seenMask e) ∧
    (t.err = none → t.seen = s.seen) ∧
    t.dseen = (s.dseen || t.degen) ∧
    (t.degen = true → t.err = none ∧ ((∃ a, i = .b2t a) ∨ ∃ a, i = .mdec a))) ∧
  (∀ s t : State, exec .stat s = .next t →
    t.err = s.err ∧ t.degen = s.degen ∧ t.seen = s.seen ∧ t.dseen = s.dseen)

/-- R22 to R26: the layout of `STATUS`, and the codes of its fields outright. -/
def Obligations.StatusLayout : Prop :=
  (∀ s : State,
    (statusWord s).extractLsb' 0 2 = lifeCode s.engine ∧
    (s.engine = .unconfigured → (statusWord s).extractLsb' 0 2 = 0) ∧
    (∀ c, s.engine = .ready c → (statusWord s).extractLsb' 0 2 = 1) ∧
    (s.engine = .failed → (statusWord s).extractLsb' 0 2 = 2) ∧
    (statusWord s).extractLsb' 2 3 = errCode s.err ∧
    (s.err = none → (statusWord s).extractLsb' 2 3 = 0) ∧
    (s.err = some .configurationError → (statusWord s).extractLsb' 2 3 = 1) ∧
    (s.err = some .lengthMismatch → (statusWord s).extractLsb' 2 3 = 2) ∧
    (s.err = some .rangeError → (statusWord s).extractLsb' 2 3 = 3) ∧
    (s.err = some .illegalCommand → (statusWord s).extractLsb' 2 3 = 4) ∧
    (statusWord s).getLsbD 5 = s.degen ∧
    (statusWord s).extractLsb' 6 4 = s.seen ∧
    (statusWord s).getLsbD 10 = s.dseen ∧
    (statusWord s).extractLsb' 11 5 = 0) ∧
  (∀ (i : Instr) (s t : State) (e : ErrClass), i ≠ .stat → exec i s = .next t → t.err = some e →
    (e = .configurationError → (statusWord t).getLsbD 6 = true) ∧
    (e = .lengthMismatch → (statusWord t).getLsbD 7 = true) ∧
    (e = .rangeError → (statusWord t).getLsbD 8 = true) ∧
    (e = .illegalCommand → (statusWord t).getLsbD 9 = true)) ∧
  seenMask .configurationError = 0b0001 ∧ seenMask .lengthMismatch = 0b0010 ∧
  seenMask .rangeError = 0b0100 ∧ seenMask .illegalCommand = 0b1000

/-- R45, read for every command but `STAT`, whose result is `STATUS` (log 14): the response and the
lifecycle after a command depend on the command, the lifecycle and the store only. -/
def Obligations.ResponseDependsOnStoreOnly : Prop :=
  ∀ (i : Instr) (s₁ s₂ t₁ t₂ : State), i ≠ .stat → s₁.engine = s₂.engine →
    (∀ c, s₁.engine = .ready c → c.Valid) →
    exec i s₁ = .next t₁ → exec i s₂ = .next t₂ →
      t₁.response = t₂.response ∧ t₁.engine = t₂.engine ∧ t₁.err = t₂.err ∧ t₁.degen = t₂.degen

/-- R113, R116, R119, R128, R129, R199 (a), R203, R204, R211: a command that fails a check of its
operands alone ends with an error in every state. What counts as ill-formed is the model's (log 17). -/
def Obligations.IllFormedCommandsRaise : Prop :=
  ∀ (i : Instr) (s t : State), i.wellFormed = false → exec i s = .next t → t.err ≠ none

/-! ## System commands -/

/-- R210: `CFG` in `Unconfigured` with accepted operands writes the whole store and enters `Ready`; with
refused operands it raises ConfigurationError and enters `Failed`; elsewhere it raises IllegalCommand. -/
def Obligations.CfgRule : Prop :=
  ∀ (n m r : Nat) (sbox perm : Syms) (key : Bits) (s : State),
    (s.engine ≠ .unconfigured → Raises (.cfg n m r sbox perm key) s .illegalCommand) ∧
    (s.engine = .unconfigured → ¬CfgAccepts n m r sbox perm key →
      ∃ t, exec (.cfg n m r sbox perm key) s = .next t ∧ Reported s t .configurationError ∧
        t.engine = .failed ∧ t.blk = s.blk ∧ t.rnd = s.rnd ∧ t.iv = s.iv ∧ t.cnt = s.cnt) ∧
    (s.engine = .unconfigured → CfgAccepts n m r sbox perm key →
      ∃ t c, exec (.cfg n m r sbox perm key) s = .next t ∧ t.engine = .ready c ∧
        c.n = n ∧ c.m = m ∧ c.r = r ∧ c.sbox = sbox ∧ c.perm = perm ∧
        c.invsbox.length = 2 ^ n ∧ (∀ x y : Nat, sbox[x]? = some y → c.invsbox[y]? = some x) ∧
        c.invperm.length = n * m ∧ (∀ i j : Nat, perm[i]? = some j → c.invperm[j]? = some i) ∧
        c.key.length = m + r ∧
        (∀ j < m + r, c.key[j]? = some (val (subBits key (j * n) n))) ∧
        c.rk.length = r + 1 ∧ (∀ i ≤ r, c.rk[i]? = some (subBits key (i * n) (n * m))) ∧
        t.err = none ∧ t.degen = false ∧ t.seen = s.seen ∧ t.dseen = s.dseen ∧
        t.response = some ⟨none, false, none⟩ ∧ SameDatapath s t ∧ t.pending = s.pending)

/-- R215: `STAT` answers `STATUS` in every lifecycle state and writes nothing. -/
def Obligations.StatRule : Prop :=
  ∀ s : State, ∃ t, exec .stat s = .next t ∧
    t.response = some ⟨none, s.degen, some (.status (statusWord s))⟩ ∧
    { t with response := s.response } = s

/-! ## Codec -/

/-- R11: the integer view of bit strings. -/
def Obligations.IntegerView : Prop :=
  (∀ b : Bits, val b = ((List.range b.length).map fun i =>
    if b[i]? = some true then 2 ^ (b.length - 1 - i) else 0).sum) ∧
  (∀ (k v : Nat) (b : Bits), b = bitsOf k v ↔ b.length = k ∧ val b = v % 2 ^ k) ∧
  (∀ k v i : Nat, i < k → (bitsOf k v)[i]? = some (v.testBit (k - 1 - i))) ∧
  (∀ b : Bits, bitsOf b.length (val b) = b)

/-- R111, R112: `B2S`. -/
def Obligations.B2sRule : Prop :=
  ∀ (a : Bits) (k : Nat) (s : State),
    (s.NotReady → Raises (.b2s a k) s .illegalCommand) ∧
    ∀ c, s.engine = .ready c →
      (k = 0 → Raises (.b2s a k) s .illegalCommand) ∧
      (0 < k → ∃ t q, exec (.b2s a k) s = .next t ∧ Completed s t (.syms q) false ∧
        SameDatapath s t ∧ a.length ≤ q.length * k ∧ q.length * k < a.length + k ∧
        ∀ j < q.length,
          q[j]? = some (val (subBits (a ++ zeros (q.length * k - a.length)) (j * k) k)))

/-- R113: `S2B`. -/
def Obligations.S2bRule : Prop :=
  ∀ (a : Syms) (k : Nat) (s : State),
    (s.NotReady → Raises (.s2b a k) s .illegalCommand) ∧
    ∀ c, s.engine = .ready c →
      (k = 0 → Raises (.s2b a k) s .illegalCommand) ∧
      (0 < k → (∃ x ∈ a, 2 ^ k ≤ x) → Raises (.s2b a k) s .rangeError) ∧
      (0 < k → (∀ x ∈ a, x < 2 ^ k) →
        ∃ t q, exec (.s2b a k) s = .next t ∧ Completed s t (.bits q) false ∧ SameDatapath s t ∧
          q.length = k * a.length ∧
          ∀ (j x : Nat), a[j]? = some x → val (subBits q (j * k) k) = x)

/-- R115, R116: `T2B`. -/
def Obligations.T2bRule : Prop :=
  ∀ (a : Text) (s : State),
    (s.NotReady → Raises (.t2b a) s .illegalCommand) ∧
    ∀ c, s.engine = .ready c →
      ((∃ x ∈ a, 256 ≤ x) → Raises (.t2b a) s .rangeError) ∧
      ((∀ x ∈ a, x < 256) →
        ∃ t q, exec (.t2b a) s = .next t ∧ Completed s t (.bits q) false ∧ SameDatapath s t ∧
          q.length = 8 * a.length ∧
          ∀ (j x : Nat), a[j]? = some x → val (subBits q (8 * j) 8) = x)

/-- R117, R118, R119: `B2T`, by the position `p` of the last `1`, if there is one. -/
def Obligations.B2tRule : Prop :=
  ∀ (a : Bits) (s : State),
    (s.NotReady → Raises (.b2t a) s .illegalCommand) ∧
    ∀ c, s.engine = .ready c →
      ((∀ i : Nat, a[i]? ≠ some true) →
        ∃ t, exec (.b2t a) s = .next t ∧ Completed s t (.text []) true ∧ SameDatapath s t) ∧
      ∀ p : Nat, a[p]? = some true → (∀ i : Nat, p < i → a[i]? ≠ some true) →
        (p % 8 ≠ 0 → Raises (.b2t a) s .lengthMismatch) ∧
        (p % 8 = 0 →
          ∃ t q, exec (.b2t a) s = .next t ∧ Completed s t (.text q) false ∧ SameDatapath s t ∧
            q.length = p / 8 ∧ ∀ j < p / 8, q[j]? = some (val (subBits a (8 * j) 8)))

/-- R121: `PAD`. -/
def Obligations.PadRule : Prop :=
  ∀ (a : Bits) (k : Nat) (s : State),
    (s.NotReady → Raises (.pad a k) s .illegalCommand) ∧
    ∀ c, s.engine = .ready c →
      (k = 0 → Raises (.pad a k) s .illegalCommand) ∧
      (0 < k → ∃ t z, exec (.pad a k) s = .next t ∧
        Completed s t (.bits (a ++ true :: zeros z)) false ∧ SameDatapath s t ∧
        z = (k - (a.length + 1) % k) % k ∧ z < k ∧ k ∣ a.length + 1 + z)

/-- R125: `SPLIT`. -/
def Obligations.SplitRule : Prop :=
  ∀ (a : Bits) (k : Nat) (s : State),
    (s.NotReady → Raises (.split a k) s .illegalCommand) ∧
    ∀ c, s.engine = .ready c →
      (k = 0 → Raises (.split a k) s .illegalCommand) ∧
      (0 < k → ∃ t q, exec (.split a k) s = .next t ∧ Completed s t (.blocks q) false ∧
        SameDatapath s t ∧ a.length ≤ q.length * k ∧ q.length * k < a.length + k ∧
        (∀ b ∈ q, b.length = k) ∧
        ∀ j < q.length,
          q[j]? = some (subBits (a ++ zeros (q.length * k - a.length)) (j * k) k))

/-- R127: `JOIN`, with its property that it undoes `SPLIT` up to the zero fill. -/
def Obligations.JoinRule : Prop :=
  (∀ (a : Blocks) (s : State),
    (s.NotReady → Raises (.join a) s .illegalCommand) ∧
    ∀ c, s.engine = .ready c →
      ∃ t, exec (.join a) s = .next t ∧ Completed s t (.bits a.flatten) false ∧
        SameDatapath s t) ∧
  (∀ (b : Bits) (k : Nat) (s : State) (c : Store), s.engine = .ready c → 0 < k →
    ∃ t u q, exec (.split b k) s = .next t ∧ t.response = some ⟨none, false, some (.blocks q)⟩ ∧
      exec (.join q) t = .next u ∧
      u.response = some ⟨none, false, some (.bits (b ++ zeros ((k - b.length % k) % k)))⟩)

/-- R128: `XOR`. -/
def Obligations.XorRule : Prop :=
  ∀ (a b : Bits) (s : State),
    (s.NotReady → Raises (.xor a b) s .illegalCommand) ∧
    ∀ c, s.engine = .ready c →
      (a.length ≠ b.length → Raises (.xor a b) s .lengthMismatch) ∧
      (a.length = b.length →
        ∃ t q, exec (.xor a b) s = .next t ∧ Completed s t (.bits q) false ∧ SameDatapath s t ∧
          q.length = a.length ∧
          ∀ (i : Nat) (x y : Bool), a[i]? = some x → b[i]? = some y →
            q[i]? = some (Bool.xor x y))

/-- 40_codec.md, "S2B: symbols to bits", round trips (the spec derives them): `B2S` then `S2B` gives the
string back, zero-filled; `S2B` then `B2S` gives the symbols back (R114). Of the functions
(`SymbolsInvert`) and of the commands. -/
def Obligations.SymbolRoundTrips : Prop :=
  (∀ k : Nat, 0 < k → SymbolsInvert k) ∧
  ∀ (k : Nat) (s : State) (c : Store), s.engine = .ready c → 0 < k →
    (∀ b : Bits, ∃ t u q, exec (.b2s b k) s = .next t ∧
      t.response = some ⟨none, false, some (.syms q)⟩ ∧ exec (.s2b q k) t = .next u ∧
      u.response = some ⟨none, false, some (.bits (b ++ zeros ((k - b.length % k) % k)))⟩) ∧
    (∀ y : Syms, (∀ x ∈ y, x < 2 ^ k) → ∃ t u q, exec (.s2b y k) s = .next t ∧
      t.response = some ⟨none, false, some (.bits q)⟩ ∧ exec (.b2s q k) t = .next u ∧
      u.response = some ⟨none, false, some (.syms y)⟩)

/-- 40_codec.md, "PAD: pad to a block multiple", padding round trip (the spec derives it): `T2B`, `PAD`
with any width, `B2T` give the text back, without `DEGEN` (R123). Of the functions (`PaddingInverts`)
and of the commands. -/
def Obligations.PaddingRoundTrip : Prop :=
  (∀ w : Nat, 0 < w → PaddingInverts w) ∧
  ∀ (y : Text) (w : Nat) (s : State) (c : Store), s.engine = .ready c → 0 < w →
    (∀ x ∈ y, x < 256) →
    ∃ t u v q p, exec (.t2b y) s = .next t ∧ t.response = some ⟨none, false, some (.bits q)⟩ ∧
      exec (.pad q w) t = .next u ∧ u.response = some ⟨none, false, some (.bits p)⟩ ∧
      exec (.b2t p) u = .next v ∧ v.response = some ⟨none, false, some (.text y)⟩

/-! ## Layers and key schedule -/

/-- R140: `SUB`, length check (R144) before range check (R142). -/
def Obligations.SubRule : Prop :=
  ∀ (a : Syms) (s : State),
    (s.NotReady → Raises (.sub a) s .illegalCommand) ∧
    ∀ c, s.engine = .ready c → c.Valid →
      (a.length ≠ c.m → Raises (.sub a) s .lengthMismatch) ∧
      (a.length = c.m → (∃ x ∈ a, 2 ^ c.n ≤ x) → Raises (.sub a) s .rangeError) ∧
      (a.length = c.m → (∀ x ∈ a, x < 2 ^ c.n) →
        ∃ t q, exec (.sub a) s = .next t ∧ Completed s t (.syms q) false ∧ SameDatapath s t ∧
          q.length = c.m ∧ ∀ (j x : Nat), a[j]? = some x → q[j]? = c.sbox[x]?)

/-- R141: `ISUB`. -/
def Obligations.IsubRule : Prop :=
  ∀ (a : Syms) (s : State),
    (s.NotReady → Raises (.isub a) s .illegalCommand) ∧
    ∀ c, s.engine = .ready c → c.Valid →
      (a.length ≠ c.m → Raises (.isub a) s .lengthMismatch) ∧
      (a.length = c.m → (∃ x ∈ a, 2 ^ c.n ≤ x) → Raises (.isub a) s .rangeError) ∧
      (a.length = c.m → (∀ x ∈ a, x < 2 ^ c.n) →
        ∃ t q, exec (.isub a) s = .next t ∧ Completed s t (.syms q) false ∧ SameDatapath s t ∧
          q.length = c.m ∧ ∀ (j x : Nat), a[j]? = some x → q[j]? = c.invsbox[x]?)

/-- 41_substitution.md, inverse property (the spec derives it): `ISUB` undoes `SUB` and `SUB` undoes
`ISUB` (R143). Of the tables and functions (`Store.SubstitutionInverts`) and of the commands. -/
def Obligations.SubstitutionInverse : Prop :=
  (∀ c : Store, c.Valid → c.SubstitutionInverts) ∧
  ∀ (a : Syms) (s : State) (c : Store), s.engine = .ready c → c.Valid →
    a.length = c.m → (∀ x ∈ a, x < 2 ^ c.n) →
    (∃ t u q, exec (.sub a) s = .next t ∧ t.response = some ⟨none, false, some (.syms q)⟩ ∧
      exec (.isub q) t = .next u ∧ u.response = some ⟨none, false, some (.syms a)⟩) ∧
    (∃ t u q, exec (.isub a) s = .next t ∧ t.response = some ⟨none, false, some (.syms q)⟩ ∧
      exec (.sub q) t = .next u ∧ u.response = some ⟨none, false, some (.syms a)⟩)

/-- R150: `PRM`, a scatter: input position `i` goes to output position `PERM[i]`. -/
def Obligations.PrmRule : Prop :=
  ∀ (a : Bits) (s : State),
    (s.NotReady → Raises (.prm a) s .illegalCommand) ∧
    ∀ c, s.engine = .ready c → c.Valid →
      (a.length ≠ c.width → Raises (.prm a) s .lengthMismatch) ∧
      (a.length = c.width →
        ∃ t q, exec (.prm a) s = .next t ∧ Completed s t (.bits q) false ∧ SameDatapath s t ∧
          q.length = c.width ∧ ∀ i p : Nat, c.perm[i]? = some p → q[p]? = a[i]?)

/-- R151: `IPRM`. -/
def Obligations.IprmRule : Prop :=
  ∀ (a : Bits) (s : State),
    (s.NotReady → Raises (.iprm a) s .illegalCommand) ∧
    ∀ c, s.engine = .ready c → c.Valid →
      (a.length ≠ c.width → Raises (.iprm a) s .lengthMismatch) ∧
      (a.length = c.width →
        ∃ t q, exec (.iprm a) s = .next t ∧ Completed s t (.bits q) false ∧ SameDatapath s t ∧
          q.length = c.width ∧ ∀ i p : Nat, c.invperm[i]? = some p → q[p]? = a[i]?)

/-- 42_permutation.md, inverse property (the spec derives it; R153). Of the tables and functions
(`Store.PermutationInverts`) and of the commands. -/
def Obligations.PermutationInverse : Prop :=
  (∀ c : Store, c.Valid → c.PermutationInverts) ∧
  ∀ (a : Bits) (s : State) (c : Store), s.engine = .ready c → c.Valid → a.length = c.width →
    (∃ t u q, exec (.prm a) s = .next t ∧ t.response = some ⟨none, false, some (.bits q)⟩ ∧
      exec (.iprm q) t = .next u ∧ u.response = some ⟨none, false, some (.bits a)⟩) ∧
    (∃ t u q, exec (.iprm a) s = .next t ∧ t.response = some ⟨none, false, some (.bits q)⟩ ∧
      exec (.prm q) t = .next u ∧ u.response = some ⟨none, false, some (.bits a)⟩)

/-- R161: `KGEN`; on the configured key it gives the contents of `RK`. -/
def Obligations.KgenRule : Prop :=
  ∀ (a : Bits) (s : State),
    (s.NotReady → Raises (.kgen a) s .illegalCommand) ∧
    ∀ c, s.engine = .ready c →
      (a.length < c.n * (c.m + c.r) → Raises (.kgen a) s .configurationError) ∧
      (c.n * (c.m + c.r) ≤ a.length →
        ∃ t q, exec (.kgen a) s = .next t ∧ Completed s t (.blocks q) false ∧ SameDatapath s t ∧
          q.length = c.r + 1 ∧
          (∀ i ≤ c.r, q[i]? = some (subBits a (i * c.n) (c.n * c.m))) ∧
          (c.Valid → (∀ j < c.m + c.r, c.key[j]? = some (val (subBits a (j * c.n) c.n))) →
            q = c.rk))

/-! ## Round engine -/

/-- R170 with R172 to R175 and R178 to R180: the step and the successor of every state of the round
engine; from `IDLE`, the first step of an `ENC` and of a `DEC` on the operand `a`. -/
def Obligations.MicroStepTable : Prop :=
  ∀ (c : Store) (s : State),
    (∀ a : Bits, stepWhiten c a s = { s with
      blk := xorBits a (c.roundKeyAt 0)
      rnd := 0
      phase := .whitened }) ∧
    (∀ a : Bits, stepUnFinal c a s = { s with
      blk := invSubst c (xorBits a (c.roundKeyAt c.r))
      rnd := c.r
      phase := .unFinal }) ∧
    (s.phase = .whitened ∨ s.phase = .round →
      (s.rnd + 1 < c.r → microStep c s = { s with
        blk := xorBits (permute c (subst c s.blk)) (c.roundKeyAt (s.rnd + 1))
        rnd := s.rnd + 1
        phase := .round }) ∧
      (s.rnd + 1 = c.r → microStep c s = { s with
        blk := xorBits (subst c s.blk) (c.roundKeyAt c.r)
        rnd := c.r
        phase := .finalRound })) ∧
    (s.phase = .unFinal ∨ s.phase = .unRound →
      (1 ≤ s.rnd - 1 → microStep c s = { s with
        blk := invSubst c (invPermute c (xorBits s.blk (c.roundKeyAt (s.rnd - 1))))
        rnd := s.rnd - 1
        phase := .unRound }) ∧
      (s.rnd - 1 = 0 → microStep c s = { s with
        blk := xorBits s.blk (c.roundKeyAt 0)
        rnd := 0
        phase := .unWhitened })) ∧
    (s.phase = .finalRound ∨ s.phase = .unWhitened → microStep c s = { s with phase := .output }) ∧
    (s.phase = .output → microStep c s = { s with phase := .idle })

/-- R170: the chain of `PHASE` and `RND` of an encryption and of a decryption, from the first step
(`j = 0`) to `IDLE`, `R+1` data steps each. -/
def Obligations.EnginePhaseChain : Prop :=
  ∀ (c : Store) (a : Bits) (s : State), 1 ≤ c.r →
    ((stepWhiten c a s).phase = .whitened ∧ (stepWhiten c a s).rnd = 0 ∧
      (stepUnFinal c a s).phase = .unFinal ∧ (stepUnFinal c a s).rnd = c.r) ∧
    (∀ j, 1 ≤ j → j < c.r →
      (microSteps c j (stepWhiten c a s)).phase = .round ∧
      (microSteps c j (stepWhiten c a s)).rnd = j ∧
      (microSteps c j (stepUnFinal c a s)).phase = .unRound ∧
      (microSteps c j (stepUnFinal c a s)).rnd = c.r - j) ∧
    ((microSteps c c.r (stepWhiten c a s)).phase = .finalRound ∧
      (microSteps c c.r (stepWhiten c a s)).rnd = c.r ∧
      (microSteps c c.r (stepUnFinal c a s)).phase = .unWhitened ∧
      (microSteps c c.r (stepUnFinal c a s)).rnd = 0) ∧
    ((microSteps c (c.r + 1) (stepWhiten c a s)).phase = .output ∧
      (microSteps c (c.r + 1) (stepWhiten c a s)).rnd = c.r ∧
      (microSteps c (c.r + 1) (stepUnFinal c a s)).phase = .output ∧
      (microSteps c (c.r + 1) (stepUnFinal c a s)).rnd = 0) ∧
    ((microSteps c (c.r + 2) (stepWhiten c a s)).phase = .idle ∧
      (microSteps c (c.r + 2) (stepWhiten c a s)).rnd = c.r ∧
      (microSteps c (c.r + 2) (stepUnFinal c a s)).phase = .idle ∧
      (microSteps c (c.r + 2) (stepUnFinal c a s)).rnd = 0)

/-- 44_round_engine.md, section 2: `ENC` runs the micro-steps, and they compute the function `enc`; the
registers afterwards and what is left unchanged. -/
def Obligations.EncRule : Prop :=
  ∀ (a : Bits) (s : State),
    (s.NotReady → Raises (.enc a) s .illegalCommand) ∧
    ∀ c, s.engine = .ready c → c.Valid →
      (a.length ≠ c.width → Raises (.enc a) s .lengthMismatch) ∧
      (a.length = c.width →
        ∃ t, exec (.enc a) s = .next t ∧ Completed s t (.bits (encBlock c a)) false ∧
          (encBlock c a).length = c.width ∧ t.blk = encBlock c a ∧ t.rnd = c.r ∧
          t.phase = .idle ∧ t.iv = s.iv ∧ t.cnt = s.cnt ∧ t.idx = s.idx ∧
          SameDatapath (microSteps c (c.r + 2) (stepWhiten c a s)) t)

/-- 44_round_engine.md, section 3: `DEC`, likewise. -/
def Obligations.DecRule : Prop :=
  ∀ (a : Bits) (s : State),
    (s.NotReady → Raises (.dec a) s .illegalCommand) ∧
    ∀ c, s.engine = .ready c → c.Valid →
      (a.length ≠ c.width → Raises (.dec a) s .lengthMismatch) ∧
      (a.length = c.width →
        ∃ t, exec (.dec a) s = .next t ∧ Completed s t (.bits (decBlock c a)) false ∧
          (decBlock c a).length = c.width ∧ t.blk = decBlock c a ∧ t.rnd = 0 ∧
          t.phase = .idle ∧ t.iv = s.iv ∧ t.cnt = s.cnt ∧ t.idx = s.idx ∧
          SameDatapath (microSteps c (c.r + 2) (stepUnFinal c a s)) t)

/-- R183 (the spec derives it; 44_round_engine.md, section 4): for every valid store the functions `enc`
and `dec` undo each other on every block (`Store.RoundTrips`), and so do the commands: `DEC` undoes
`ENC` and `ENC` undoes `DEC`. -/
def Obligations.EncDecRoundTrip : Prop :=
  (∀ c : Store, c.Valid → c.RoundTrips) ∧
  ∀ (x : Bits) (s : State) (c : Store), s.engine = .ready c → c.Valid → x.length = c.width →
    (∃ t u y, exec (.enc x) s = .next t ∧ t.response = some ⟨none, false, some (.bits y)⟩ ∧
      exec (.dec y) t = .next u ∧ u.response = some ⟨none, false, some (.bits x)⟩) ∧
    (∃ t u y, exec (.dec x) s = .next t ∧ t.response = some ⟨none, false, some (.bits y)⟩ ∧
      exec (.enc y) t = .next u ∧ u.response = some ⟨none, false, some (.bits x)⟩)

/-! ## CTR and messages -/

/-- R191: the counter is the IV plus the 1-based index less one, modulo `2^W`. -/
def Obligations.CounterIsModular : Prop :=
  ∀ (w : Nat) (v : Bits) (i : Nat), 1 ≤ i → v.length = w →
    (counter w v i).length = w ∧ val (counter w v i) = (val v + (i - 1)) % 2 ^ w ∧
      counter w v 1 = v

/-- R193: `CTRX` on a stream `v :: p`. -/
def Obligations.CtrxRule : Prop :=
  ∀ s : State,
    (∀ a, s.NotReady → Raises (.ctrx a) s .illegalCommand) ∧
    ∀ c, s.engine = .ready c → c.Valid →
      Raises (.ctrx []) s .lengthMismatch ∧
      (∀ a : Blocks, (∃ b ∈ a, b.length ≠ c.width) → Raises (.ctrx a) s .lengthMismatch) ∧
      ∀ (v : Bits) (p : Blocks), (∀ b ∈ v :: p, b.length = c.width) →
        ∃ t q, exec (.ctrx (v :: p)) s = .next t ∧ Completed s t (.blocks q) false ∧
          q.length = p.length ∧
          (∀ (i : Nat) (x : Bits), p[i]? = some x →
            q[i]? = some (xorBits x (encBlock c (counter c.width v (i + 1))))) ∧
          CtrRegisters c s t v p.length

/-- R196: `CTRE`. -/
def Obligations.CtreRule : Prop :=
  ∀ (v : Bits) (p : Blocks) (s : State),
    (s.NotReady → Raises (.ctre v p) s .illegalCommand) ∧
    ∀ c, s.engine = .ready c → c.Valid →
      ((∃ b ∈ v :: p, b.length ≠ c.width) → Raises (.ctre v p) s .lengthMismatch) ∧
      ((∀ b ∈ v :: p, b.length = c.width) →
        ∃ t q, exec (.ctre v p) s = .next t ∧ Completed s t (.blocks q) false ∧
          q.length = p.length + 1 ∧ q[0]? = some v ∧
          (∀ (i : Nat) (x : Bits), p[i]? = some x →
            q[i + 1]? = some (xorBits x (encBlock c (counter c.width v (i + 1))))) ∧
          CtrRegisters c s t v p.length)

/-- R203: `MENC`: the padded text bits mixed with the keystream, the IV in front; the IV's width is
checked before the code points. -/
def Obligations.MencRule : Prop :=
  ∀ (a : Text) (v : Bits) (s : State),
    (s.NotReady → Raises (.menc a v) s .illegalCommand) ∧
    ∀ c, s.engine = .ready c → c.Valid →
      (v.length ≠ c.width → Raises (.menc a v) s .lengthMismatch) ∧
      (v.length = c.width → (∃ x ∈ a, 256 ≤ x) → Raises (.menc a v) s .rangeError) ∧
      (v.length = c.width → (∀ x ∈ a, x < 256) →
        ∃ t z k, exec (.menc a v) s = .next t ∧
          Completed s t
            (.bits (v ++ xorBits (textToBits a ++ true :: zeros z) (keystream c v k))) false ∧
          z < c.width ∧ 8 * a.length + 1 + z = k * c.width ∧ CtrRegisters c s t v k)

/-- 45_ctr.md, section 4, and 60_exceptions.md, section 3: `MDEC`, the zero-filled ciphertext less its
first block, mixed with the keystream of that block, decoded as `B2T` decodes (R204). That the late
LengthMismatch leaves the CTR registers as the CTR stage used them is the model's reading (log 8). -/
def Obligations.MdecRule : Prop :=
  ∀ (a : Bits) (s : State),
    (s.NotReady → Raises (.mdec a) s .illegalCommand) ∧
    ∀ c, s.engine = .ready c → c.Valid →
      (a = [] → Raises (.mdec a) s .lengthMismatch) ∧
      (a ≠ [] → ∃ z k v p, z < c.width ∧ a.length + z = (k + 1) * c.width ∧
        v = subBits (a ++ zeros z) 0 c.width ∧
        p = xorBits ((a ++ zeros z).drop c.width) (keystream c v k) ∧
        ((∀ i : Nat, p[i]? ≠ some true) →
          ∃ t, exec (.mdec a) s = .next t ∧ Completed s t (.text []) true ∧
            CtrRegisters c s t v k) ∧
        (∀ i : Nat, p[i]? = some true → (∀ j : Nat, i < j → p[j]? ≠ some true) → i % 8 = 0 →
          ∃ t q, exec (.mdec a) s = .next t ∧ Completed s t (.text q) false ∧
            q.length = i / 8 ∧ (∀ j < i / 8, q[j]? = some (val (subBits p (8 * j) 8))) ∧
            CtrRegisters c s t v k) ∧
        (∀ i : Nat, p[i]? = some true → (∀ j : Nat, i < j → p[j]? ≠ some true) → i % 8 ≠ 0 →
          ∃ t, exec (.mdec a) s = .next t ∧ Reported s t .lengthMismatch ∧
            t.engine = s.engine ∧ CtrRegisters c s t v k))

/-- 45_ctr.md, section 3, symmetry (the spec derives it; R197). Of the function (`Store.CtrInverts`) and
of the commands. -/
def Obligations.CtrSymmetry : Prop :=
  (∀ c : Store, c.Valid → c.CtrInverts) ∧
  ∀ (v : Bits) (p : Blocks) (s : State) (c : Store), s.engine = .ready c → c.Valid →
    (∀ b ∈ v :: p, b.length = c.width) →
    (∃ t u q, exec (.ctre v p) s = .next t ∧ t.response = some ⟨none, false, some (.blocks q)⟩ ∧
      exec (.ctrx q) t = .next u ∧ u.response = some ⟨none, false, some (.blocks p)⟩) ∧
    (∃ t u q, exec (.ctrx (v :: p)) s = .next t ∧
      t.response = some ⟨none, false, some (.blocks q)⟩ ∧
      exec (.ctre v q) t = .next u ∧ u.response = some ⟨none, false, some (.blocks (v :: p))⟩) ∧
    (∃ t u q, exec (.ctrx (v :: p)) s = .next t ∧
      t.response = some ⟨none, false, some (.blocks q)⟩ ∧
      exec (.ctre v p) s = .next u ∧ u.response = some ⟨none, false, some (.blocks (v :: q))⟩)

/-- 45_ctr.md, section 4, message round trip (the spec derives it): `MDEC` of `MENC` gives the text back
without `DEGEN`, for every text of byte code points and every IV (R205). Of the functions
(`Store.MessagesInvert`) and of the commands. -/
def Obligations.MessageRoundTrip : Prop :=
  (∀ c : Store, c.Valid → c.MessagesInvert) ∧
  ∀ (y : Text) (v : Bits) (s : State) (c : Store), s.engine = .ready c → c.Valid →
    v.length = c.width → (∀ x ∈ y, x < 256) →
    ∃ t u q, exec (.menc y v) s = .next t ∧ t.response = some ⟨none, false, some (.bits q)⟩ ∧
      exec (.mdec q) t = .next u ∧ u.response = some ⟨none, false, some (.text y)⟩

/-- 20_memory.md, section 5, dependency between stream locations (the spec derives it): changing payload
block `i` of the input by `d` changes block `i` of the output by `d` and no other block (R66, R202). Of the function
(`Store.KeystreamIndependent`) and of the command. -/
def Obligations.KeystreamIndependence : Prop :=
  (∀ c : Store, c.Valid → c.KeystreamIndependent) ∧
  ∀ (v : Bits) (p : Blocks) (i : Nat) (x d : Bits) (s : State) (c : Store),
    s.engine = .ready c → c.Valid → (∀ b ∈ v :: p, b.length = c.width) →
    p[i]? = some x → d.length = c.width →
    ∃ t u q y, exec (.ctrx (v :: p)) s = .next t ∧
      t.response = some ⟨none, false, some (.blocks q)⟩ ∧ q[i]? = some y ∧
      exec (.ctrx (v :: p.set i (xorBits x d))) s = .next u ∧
      u.response = some ⟨none, false, some (.blocks (q.set i (xorBits y d)))⟩

/-! ## Codes -/

/-- R36: the codes of `PHASE`. -/
def Obligations.PhaseCodes : Prop :=
  phaseCode .idle = 0 ∧ phaseCode .whitened = 1 ∧ phaseCode .round = 2 ∧
  phaseCode .finalRound = 3 ∧ phaseCode .output = 4 ∧ phaseCode .unFinal = 5 ∧
  phaseCode .unRound = 6 ∧ phaseCode .unWhitened = 7

/-! ## The pipelines as functions -/

/-- 45_ctr.md, sections 1 to 4: on operands that pass the checks `CTRX` and `CTRE` compute
`ctrTransform`, `MENC` computes `encodeMessage`, and `MDEC` answers what `decodeMessage` finds, as `B2T`
answers it (R117 to R119). -/
def Obligations.PipelinesComputeFunctions : Prop :=
  ∀ (s : State) (c : Store), s.engine = .ready c → c.Valid →
    (∀ (v : Bits) (p : Blocks), (∀ b ∈ v :: p, b.length = c.width) →
      (∃ t, exec (.ctrx (v :: p)) s = .next t ∧
        t.response = some ⟨none, false, some (.blocks (ctrTransform c v p))⟩) ∧
      ∃ t, exec (.ctre v p) s = .next t ∧
        t.response = some ⟨none, false, some (.blocks (v :: ctrTransform c v p))⟩) ∧
    (∀ (y : Text) (v : Bits), v.length = c.width → (∀ x ∈ y, x < 256) →
      ∃ t, exec (.menc y v) s = .next t ∧
        t.response = some ⟨none, false, some (.bits (encodeMessage c y v))⟩) ∧
    ∀ a : Bits, a ≠ [] → ∃ t, exec (.mdec a) s = .next t ∧
      (∀ y, decodeMessage c a = .text y → t.response = some ⟨none, false, some (.text y)⟩) ∧
      (decodeMessage c a = .noMarker → t.response = some ⟨none, true, some (.text [])⟩) ∧
      (decodeMessage c a = .misaligned → t.response = some ⟨some .lengthMismatch, false, none⟩)
end

