-- ==== Sys2Proof/Laws/Bits.lean ====
section
/-!
SUPPORT. The notation of `00_scope.md` R10 to R12: lengths, the integer view and its two round trips,
slices of concatenations, exclusive-or, and the chunking operations built on them.
-/

namespace Sys2Proof.Machine

/-! ## Lengths and slices -/

@[simp] theorem zeros_length (k : Nat) : (zeros k).length = k := by simp [zeros]

@[simp] theorem bitsOf_length (k v : Nat) : (bitsOf k v).length = k := by simp [bitsOf]

@[simp] theorem xorBits_length (a b : Bits) :
    (xorBits a b).length = min a.length b.length := by simp [xorBits]

theorem subBits_length (b : Bits) (i k : Nat) (h : i + k ≤ b.length) :
    (subBits b i k).length = k := by simp [subBits]; omega

theorem subBits_getElem? (b : Bits) (i k j : Nat) (h : j < k) :
    (subBits b i k)[j]? = b[i + j]? := by
  simp [subBits, h, List.getElem?_drop]

/-- A slice that ends within the left part of a concatenation is a slice of the left part. -/
theorem subBits_append_left (a b : Bits) (i k : Nat) (h : i + k ≤ a.length) :
    subBits (a ++ b) i k = subBits a i k := by
  simp only [subBits, List.drop_append_of_le_length (show i ≤ a.length by omega)]
  rw [List.take_append_of_le_length (by simp; omega)]

/-- A slice that starts after the left part of a concatenation is a slice of the right part. -/
theorem subBits_append_right (a b : Bits) (i k : Nat) :
    subBits (a ++ b) (a.length + i) k = subBits b i k := by
  simp [subBits]

theorem subBits_all (b : Bits) : subBits b 0 b.length = b := by simp [subBits]

/-! ## The integer view (R11) -/

theorem val_nil : val [] = 0 := rfl

theorem val_foldl (b : Bits) (v : Nat) :
    b.foldl (fun v x => 2 * v + x.toNat) v = v * 2 ^ b.length + val b := by
  induction b generalizing v with
  | nil => simp [val]
  | cons x xs ih =>
    simp only [List.foldl_cons, List.length_cons, val]
    rw [ih, ih (2 * 0 + x.toNat)]
    ring

theorem val_cons (x : Bool) (b : Bits) : val (x :: b) = x.toNat * 2 ^ b.length + val b := by
  have h := val_foldl b (2 * 0 + x.toNat)
  simpa [val] using h

theorem val_append (a b : Bits) : val (a ++ b) = val a * 2 ^ b.length + val b := by
  unfold val
  rw [List.foldl_append, val_foldl]
  rfl

theorem val_lt (b : Bits) : val b < 2 ^ b.length := by
  induction b with
  | nil => simp [val]
  | cons x xs ih =>
    rw [val_cons, List.length_cons, Nat.pow_succ]
    cases x <;> simp <;> omega

theorem bitsOf_zero (v : Nat) : bitsOf 0 v = [] := rfl

theorem bitsOf_getElem? (k v i : Nat) (h : i < k) :
    (bitsOf k v)[i]? = some (v.testBit (k - 1 - i)) := by
  simp [bitsOf, h]

/-- The leftmost bit of `bits_{k+1}(v)` is bit `k` of `v`. -/
theorem bitsOf_succ (k v : Nat) : bitsOf (k + 1) v = v.testBit k :: bitsOf k v := by
  simp only [bitsOf, List.range_succ_eq_map, List.map_cons, List.map_map]
  congr 1
  apply List.map_congr_left
  intro i hi
  simp only [Function.comp_apply]
  congr 1
  omega

/-- `val(bits_k(v)) = v mod 2^k` (R11). -/
theorem val_bitsOf (k v : Nat) : val (bitsOf k v) = v % 2 ^ k := by
  induction k with
  | zero => simp [bitsOf_zero, val_nil, Nat.mod_one]
  | succ k ih =>
    rw [bitsOf_succ, val_cons, ih, bitsOf_length, Nat.pow_succ, Nat.mod_mul, Nat.testBit,
      Nat.shiftRight_eq_div_pow, Nat.one_and_eq_mod_two]
    have h2 := Nat.mod_lt (v / 2 ^ k) (show 0 < 2 by omega)
    rcases Nat.mod_two_eq_zero_or_one (v / 2 ^ k) with h | h <;> simp [h]
    omega

/-- The integer view is injective on strings of one length. -/
theorem val_inj : ∀ (a b : Bits), a.length = b.length → val a = val b → a = b
  | [], [], _, _ => rfl
  | x :: a, y :: b, hl, hv => by
    simp only [List.length_cons, Nat.add_right_cancel_iff] at hl
    rw [val_cons, val_cons, hl] at hv
    have ha := val_lt a
    have hb := val_lt b
    rw [hl] at ha
    have hxy : x = y := by
      cases x <;> cases y <;> simp at hv ⊢ <;> omega
    subst hxy
    have hab : val a = val b := by omega
    rw [val_inj a b hl hab]

/-- `bits_k(val(b)) = b` when `|b| = k` (R11). -/
theorem bitsOf_val (b : Bits) : bitsOf b.length (val b) = b := by
  apply val_inj
  · simp
  · rw [val_bitsOf, Nat.mod_eq_of_lt (val_lt b)]

/-! ## Exclusive-or -/

theorem xorBits_getElem? (a b : Bits) (i : Nat) (x y : Bool) (hx : a[i]? = some x)
    (hy : b[i]? = some y) : (xorBits a b)[i]? = some (Bool.xor x y) := by
  simp [xorBits, List.getElem?_zipWith, hx, hy]

/-- Mixing with the same key twice changes nothing. -/
theorem xorBits_cancel : ∀ (a k : Bits), a.length ≤ k.length → xorBits (xorBits a k) k = a
  | [], _, _ => by simp [xorBits]
  | x :: a, y :: k, h => by
    have ih := xorBits_cancel a k (by simpa using h)
    simp only [xorBits, List.zipWith_cons_cons] at ih ⊢
    rw [ih]
    simp

theorem xorBits_comm (a b : Bits) : xorBits a b = xorBits b a := by
  simp only [xorBits]
  rw [List.zipWith_comm]
  congr
  funext x y
  exact Bool.xor_comm y x

theorem xorBits_assoc : ∀ (a b c : Bits), xorBits (xorBits a b) c = xorBits a (xorBits b c)
  | [], _, _ => by simp [xorBits]
  | _ :: _, [], _ => by simp [xorBits]
  | _ :: _, _ :: _, [] => by simp [xorBits]
  | x :: a, y :: b, z :: c => by
    have ih := xorBits_assoc a b c
    simp only [xorBits, List.zipWith_cons_cons] at ih ⊢
    rw [ih, Bool.xor_assoc]

theorem xorBits_append (a b c d : Bits) (h : a.length = c.length) :
    xorBits (a ++ b) (c ++ d) = xorBits a c ++ xorBits b d := by
  simp [xorBits, List.zipWith_append h]

/-! ## Chunks -/

theorem chunkCount_mul (j k : Nat) (hk : 0 < k) : chunkCount (j * k) k = j := by
  unfold chunkCount
  rw [Nat.add_sub_assoc hk, Nat.mul_comm, Nat.mul_add_div hk, Nat.div_eq_of_lt (by omega)]
  rfl

/-- `chunkCount` is the ceiling of the quotient. -/
theorem chunkCount_bounds (len k : Nat) (hk : 0 < k) :
    len ≤ chunkCount len k * k ∧ chunkCount len k * k < len + k := by
  have h1 := Nat.div_add_mod (len + k - 1) k
  have h2 := Nat.mod_lt (len + k - 1) hk
  rw [Nat.mul_comm] at h1
  unfold chunkCount
  omega

theorem zeroFill_length (a : Bits) (k : Nat) (hk : 0 < k) :
    (zeroFill a k).length = chunkCount a.length k * k := by
  have := (chunkCount_bounds a.length k hk).1
  simp [zeroFill]; omega

/-- Nothing is filled in when the length is already a multiple. -/
theorem zeroFill_multiple (a : Bits) (j k : Nat) (hk : 0 < k) (h : a.length = j * k) :
    zeroFill a k = a := by
  simp [zeroFill, h, chunkCount_mul j k hk, zeros]

/-- The chunks of a string of `j*k` bits, put together again. -/
theorem flatMap_subBits (b : Bits) (j k : Nat) (h : b.length = j * k) :
    (List.range j).flatMap (fun t => subBits b (t * k) k) = b := by
  induction j generalizing b with
  | zero => simpa using (List.length_eq_zero_iff.mp (by simpa using h)).symm
  | succ j ih =>
    have hs : ∀ t, subBits b ((t + 1) * k) k = subBits (b.drop k) (t * k) k := by
      intro t
      simp only [subBits, List.drop_drop]
      congr 2
      ring
    rw [List.range_succ_eq_map, List.flatMap_cons, List.flatMap_map]
    simp only [hs]
    rw [ih (b.drop k) (by simp [h]; rw [Nat.succ_mul]; omega)]
    simp [subBits]

/-- The zero fill as R114 and R127 write it. -/
theorem zeroFill_eq (b : Bits) (k : Nat) (hk : 0 < k) :
    zeroFill b k = b ++ zeros ((k - b.length % k) % k) := by
  simp only [zeroFill]
  congr 2
  have hb := chunkCount_bounds b.length k hk
  have hd := Nat.div_add_mod b.length k
  have hm := Nat.mod_lt b.length hk
  set q := chunkCount b.length k
  rw [Nat.mul_comm] at hd
  by_cases h0 : b.length % k = 0
  · rw [h0, Nat.sub_zero, Nat.mod_self]
    have : q ≤ b.length / k := by
      by_contra h
      have : (b.length / k + 1) * k ≤ q * k := Nat.mul_le_mul_right k (by omega)
      rw [Nat.add_mul] at this; omega
    have := Nat.mul_le_mul_right k this
    omega
  · rw [Nat.mod_eq_of_lt (show k - b.length % k < k by omega)]
    have h1 : q ≤ b.length / k + 1 := by
      by_contra h
      have : (b.length / k + 2) * k ≤ q * k := Nat.mul_le_mul_right k (by omega)
      rw [Nat.add_mul] at this; omega
    have h2 : b.length / k + 1 ≤ q := by
      by_contra h
      have : q * k ≤ (b.length / k) * k := Nat.mul_le_mul_right k (by omega)
      omega
    have : q = b.length / k + 1 := by omega
    rw [this, Nat.add_mul]; omega

theorem splitIntoBlocks_length (a : Bits) (k : Nat) :
    (splitIntoBlocks a k).length = chunkCount a.length k := by simp [splitIntoBlocks]

theorem bitsToSymbols_length (a : Bits) (k : Nat) :
    (bitsToSymbols a k).length = chunkCount a.length k := by simp [bitsToSymbols]

theorem subBits_chunk_length (b : Bits) (j k t : Nat) (h : b.length = j * k) (ht : t < j) :
    (subBits b (t * k) k).length = k := by
  apply subBits_length
  have : (t + 1) * k ≤ j * k := Nat.mul_le_mul_right k ht
  rw [h]
  rw [Nat.succ_mul] at this
  exact this

/-- Every block of `SPLIT` has `k` bits. -/
theorem splitIntoBlocks_width (a : Bits) (k : Nat) (hk : 0 < k) :
    ∀ b ∈ splitIntoBlocks a k, b.length = k := by
  intro b hb
  simp only [splitIntoBlocks, List.mem_map, List.mem_range] at hb
  obtain ⟨t, ht, rfl⟩ := hb
  exact subBits_chunk_length _ _ _ _ (zeroFill_length a k hk) ht

/-- `JOIN` after `SPLIT` gives the zero-filled string (R127). -/
theorem joinBlocks_split (a : Bits) (k : Nat) (hk : 0 < k) :
    joinBlocks (splitIntoBlocks a k) = zeroFill a k := by
  simp only [joinBlocks, splitIntoBlocks, ← List.flatMap_def]
  exact flatMap_subBits _ _ _ (zeroFill_length a k hk)

/-- `S2B` after `B2S` gives the zero-filled string (R114). -/
theorem symbolsToBits_bitsToSymbols (a : Bits) (k : Nat) (hk : 0 < k) :
    symbolsToBits (bitsToSymbols a k) k = zeroFill a k := by
  have hl := zeroFill_length a k hk
  refine Eq.trans ?_ (flatMap_subBits (zeroFill a k) _ k hl)
  simp only [symbolsToBits, bitsToSymbols, List.flatMap_def, List.map_map]
  congr 1
  apply List.map_congr_left
  intro t ht
  have hlen := subBits_chunk_length (zeroFill a k) _ k t hl (List.mem_range.mp ht)
  have h := bitsOf_val (subBits (zeroFill a k) (t * k) k)
  rw [hlen] at h
  exact h

/-- Concatenated `k`-bit pieces: the length. -/
theorem flatMap_length {α : Type} (f : α → Bits) (k : Nat) (s : List α)
    (hf : ∀ x ∈ s, (f x).length = k) : (s.flatMap f).length = s.length * k := by
  induction s with
  | nil => simp
  | cons x xs ih =>
    rw [List.flatMap_cons, List.length_append, hf x (by simp),
      ih (fun y hy => hf y (by simp [hy])), List.length_cons]
    ring

/-- Concatenated `k`-bit pieces: piece `j`. -/
theorem subBits_flatMap {α : Type} (f : α → Bits) (k : Nat) (s : List α)
    (hf : ∀ x ∈ s, (f x).length = k) (j : Nat) (x : α) (hj : s[j]? = some x) :
    subBits (s.flatMap f) (j * k) k = f x := by
  induction s generalizing j with
  | nil => simp at hj
  | cons y ys ih =>
    have hy : (f y).length = k := hf y (by simp)
    cases j with
    | zero =>
      simp only [List.getElem?_cons_zero, Option.some.injEq] at hj
      subst hj
      simp [subBits, hy]
    | succ j =>
      simp only [List.getElem?_cons_succ] at hj
      rw [List.flatMap_cons, show (j + 1) * k = (f y).length + j * k by rw [hy]; ring,
        subBits_append_right]
      exact ih (fun z hz => hf z (by simp [hz])) j hj

theorem symbolsToBits_length (s : Syms) (k : Nat) : (symbolsToBits s k).length = s.length * k :=
  flatMap_length _ k s (by simp)

theorem textToBits_length (s : Text) : (textToBits s).length = s.length * 8 :=
  flatMap_length _ 8 s (by simp [Config.charWidth])

/-- `B2S` after `S2B` gives the symbols back (R114). -/
theorem bitsToSymbols_symbolsToBits (s : Syms) (k : Nat) (hk : 0 < k) (h : ∀ x ∈ s, x < 2 ^ k) :
    bitsToSymbols (symbolsToBits s k) k = s := by
  have hl := symbolsToBits_length s k
  simp only [bitsToSymbols]
  rw [hl, chunkCount_mul _ _ hk, zeroFill_multiple _ _ _ hk hl]
  apply List.ext_getElem?
  intro j
  by_cases hj : j < s.length
  · have hs : s[j]? = some s[j] := List.getElem?_eq_getElem hj
    rw [List.getElem?_map, List.getElem?_range hj, Option.map_some, hs]
    simp only [symAt]
    rw [symbolsToBits, subBits_flatMap (bitsOf k) k s (by simp) j _ hs, val_bitsOf,
      Nat.mod_eq_of_lt (h _ (List.getElem_mem hj))]
  · simp [hj]

/-- Every symbol of `B2S` fits its width. -/
theorem symAt_lt (n : Nat) (b : Bits) (j : Nat) : symAt n b j < 2 ^ n := by
  have h := val_lt (subBits b (j * n) n)
  have hl : (subBits b (j * n) n).length ≤ n := by simp [subBits]
  exact Nat.lt_of_lt_of_le h (Nat.pow_le_pow_right (by omega) hl)

theorem bitsToSymbols_lt (a : Bits) (k : Nat) : ∀ x ∈ bitsToSymbols a k, x < 2 ^ k := by
  intro x hx
  simp only [bitsToSymbols, List.mem_map] at hx
  obtain ⟨t, -, rfl⟩ := hx
  exact symAt_lt k _ t

theorem allBelow_iff (b : Nat) (a : List Nat) : allBelow b a = true ↔ ∀ x ∈ a, x < b := by
  simp [allBelow]

theorem allOfWidth_iff (w : Nat) (a : Blocks) : allOfWidth w a = true ↔ ∀ b ∈ a, b.length = w := by
  simp [allOfWidth]

theorem isByteText_iff (a : Text) : isByteText a = true ↔ ∀ x ∈ a, x < 256 := by
  simp only [isByteText, Config.charWidth, List.all_eq_true]
  norm_num

end Sys2Proof.Machine
end

