-- ==== Sys2Proof/Laws/Tables.lean ====
section
/-!
SUPPORT. Tables: what a scatter by a bijection writes (R150, R152), the inverse table (R30, R32), and
that a table and its inverse undo each other (R143, R153).
-/

namespace Sys2Proof.Machine

theorem isBijection_iff (t : List Nat) (size : Nat) :
    isBijection t size = true ↔ t.length = size ∧ (∀ x ∈ t, x < size) ∧ t.Nodup := by
  simp [isBijection, allBelow, and_assoc]

theorem tableAt_eq (t : List Nat) (i : Nat) (h : i < t.length) : t[i]? = some (tableAt t i) := by
  simp [tableAt, h]

theorem tableAt_lt (t : List Nat) (size i : Nat) (hb : isBijection t size = true) (hi : i < size) :
    tableAt t i < size := by
  obtain ⟨hl, hr, -⟩ := (isBijection_iff t size).mp hb
  have h := tableAt_eq t i (by omega)
  exact hr _ (List.mem_of_getElem? h)

/-- A bijection takes no value twice. -/
theorem tableAt_inj (t : List Nat) (size i j : Nat) (hb : isBijection t size = true)
    (hi : i < size) (hj : j < size) (h : tableAt t i = tableAt t j) : i = j := by
  obtain ⟨hl, -, hn⟩ := (isBijection_iff t size).mp hb
  have h1 := tableAt_eq t i (by omega)
  have h2 := tableAt_eq t j (by omega)
  rw [h, ← h2] at h1
  exact (List.getElem?_inj (show i < t.length by omega) hn).mp h1

/-- A bijection takes every value of its range. -/
theorem tableAt_surj (t : List Nat) (size y : Nat) (hb : isBijection t size = true)
    (hy : y < size) : ∃ i < size, tableAt t i = y := by
  obtain ⟨hl, hr, hn⟩ := (isBijection_iff t size).mp hb
  have hsub : t ⊆ List.range size := fun x hx => List.mem_range.mpr (hr x hx)
  have hperm : t.Perm (List.range size) :=
    (List.subperm_of_subset hn hsub).perm_of_length_le (by simp [hl])
  have hmem : y ∈ t := hperm.mem_iff.mpr (List.mem_range.mpr hy)
  obtain ⟨i, hi, rfl⟩ := List.getElem_of_mem hmem
  exact ⟨i, by omega, by simp [tableAt, hi]⟩

/-! ## Scatter -/

theorem scatter_foldl_length {α : Type} (es : List (Nat × α)) (q : List α) :
    (es.foldl (fun q e => q.set e.1 e.2) q).length = q.length := by
  induction es generalizing q with
  | nil => rfl
  | cons e es ih => simp [ih]

theorem scatter_length {α : Type} (d : α) (p : List Nat) (xs : List α) :
    (scatter d p xs).length = p.length := by
  simp [scatter, scatter_foldl_length]

/-- A position none of the remaining writes touches keeps its value. -/
theorem scatter_foldl_untouched {α : Type} (es : List (Nat × α)) (q : List α) (j : Nat)
    (h : ∀ e ∈ es, e.1 ≠ j) : (es.foldl (fun q e => q.set e.1 e.2) q)[j]? = q[j]? := by
  induction es generalizing q with
  | nil => rfl
  | cons e es ih =>
    rw [List.foldl_cons, ih _ (fun e' he' => h e' (by simp [he'])),
      List.getElem?_set_ne (h e (by simp))]

/-- A scatter to distinct positions leaves each value at the position it was sent to. -/
theorem scatter_foldl_written {α : Type} (es : List (Nat × α)) (q : List α)
    (hn : (es.map Prod.fst).Nodup) (hr : ∀ e ∈ es, e.1 < q.length) (e : Nat × α) (he : e ∈ es) :
    (es.foldl (fun q e => q.set e.1 e.2) q)[e.1]? = some e.2 := by
  induction es generalizing q with
  | nil => simp at he
  | cons e' es ih =>
    rw [List.map_cons, List.nodup_cons] at hn
    rw [List.foldl_cons]
    rcases List.mem_cons.mp he with rfl | he
    · rw [scatter_foldl_untouched]
      · simp [hr e (by simp)]
      · intro e'' he'' h
        exact hn.1 (h ▸ List.mem_map_of_mem he'')
    · exact ih _ hn.2 (fun e'' he'' => by simpa using hr e'' (by simp [he''])) he

/-- Input position `i` goes to output position `p[i]` (R150, R152). -/
theorem scatter_getElem? {α : Type} (d : α) (p : List Nat) (xs : List α) (size i : Nat)
    (hb : isBijection p size = true) (hx : xs.length = size) (hi : i < size) :
    (scatter d p xs)[tableAt p i]? = xs[i]? := by
  obtain ⟨hl, hr, hn⟩ := (isBijection_iff p size).mp hb
  have hp := tableAt_eq p i (by omega)
  have hxi : xs[i]? = some xs[i] := List.getElem?_eq_getElem (by omega)
  rw [hxi]
  refine scatter_foldl_written (p.zip xs) _ ?_ ?_ (tableAt p i, xs[i]) ?_
  · rw [List.map_fst_zip (by omega)]; exact hn
  · intro e he
    simp only [List.length_replicate]
    rw [hl]
    exact hr _ (List.of_mem_zip he).1
  · apply List.mem_of_getElem? (i := i)
    rw [List.getElem?_zip_eq_some]
    exact ⟨hp, hxi⟩

/-! ## Inverse tables -/

theorem invertTable_length (t : List Nat) : (invertTable t).length = t.length :=
  scatter_length _ _ _

/-- `INV[T[x]] = x` (R30, R32). -/
theorem invertTable_left (t : List Nat) (size x : Nat) (hb : isBijection t size = true)
    (hx : x < size) : tableAt (invertTable t) (tableAt t x) = x := by
  have hl := ((isBijection_iff t size).mp hb).1
  have h := scatter_getElem? 0 t (List.range t.length) size x hb (by simp [hl]) hx
  simp only [tableAt, invertTable] at h ⊢
  rw [List.getD_eq_getElem?_getD, h, List.getElem?_range (by omega)]
  rfl

/-- Entry by entry: `T[x] = y` gives `INV[y] = x` (R30, R32). -/
theorem invertTable_getElem? (t : List Nat) (size x y : Nat) (hb : isBijection t size = true)
    (h : t[x]? = some y) : (invertTable t)[y]? = some x := by
  have hx : x < t.length := (List.getElem?_eq_some_iff.mp h).1
  have hl := ((isBijection_iff t size).mp hb).1
  rw [tableAt_eq t x hx, Option.some.injEq] at h
  subst h
  have hy := tableAt_lt t size x hb (by omega)
  rw [tableAt_eq _ _ (by rw [invertTable_length]; omega),
    invertTable_left t size x hb (by omega)]

/-- From a left inverse of a bijection to the right one: `T[INV[y]] = y` (R30, R32). -/
theorem tableAt_right_of_left (t inv : List Nat) (size y : Nat) (hb : isBijection t size = true)
    (hinv : ∀ x < size, tableAt inv (tableAt t x) = x) (hy : y < size) :
    tableAt inv y < size ∧ tableAt t (tableAt inv y) = y := by
  obtain ⟨x, hx, rfl⟩ := tableAt_surj t size y hb hy
  rw [hinv x hx]
  exact ⟨hx, rfl⟩

/-- The inverse of a bijection is a bijection. -/
theorem isBijection_of_left_inverse (t inv : List Nat) (size : Nat)
    (hb : isBijection t size = true) (hl : inv.length = size)
    (hinv : ∀ x < size, tableAt inv (tableAt t x) = x) : isBijection inv size = true := by
  have hright := fun y hy => tableAt_right_of_left t inv size y hb hinv hy
  rw [isBijection_iff]
  refine ⟨hl, ?_, ?_⟩
  · intro x hx
    obtain ⟨i, hi, rfl⟩ := List.getElem_of_mem hx
    have := (hright i (by omega)).1
    simpa [tableAt, hi] using this
  · rw [List.nodup_iff_injective_getElem]
    intro i j hij
    have hi := hright i.1 (by omega)
    have hj := hright j.1 (by omega)
    have e : tableAt inv i.1 = tableAt inv j.1 := by
      simp only [tableAt, List.getD_eq_getElem?_getD, List.getElem?_eq_getElem i.2,
        List.getElem?_eq_getElem j.2]
      simpa using hij
    apply Fin.ext
    rw [← hi.2, e, hj.2]

/-- Scattering by a bijection and then by its inverse changes nothing (R153). -/
theorem scatter_inverse {α : Type} (d : α) (p inv : List Nat) (xs : List α) (size : Nat)
    (hb : isBijection p size = true) (hl : inv.length = size)
    (hinv : ∀ x < size, tableAt inv (tableAt p x) = x) (hx : xs.length = size) :
    scatter d inv (scatter d p xs) = xs := by
  have hpl := ((isBijection_iff p size).mp hb).1
  have hib := isBijection_of_left_inverse p inv size hb hl hinv
  apply List.ext_getElem?
  intro i
  by_cases hi : i < size
  · have h1 := scatter_getElem? d inv (scatter d p xs) size (tableAt p i) hib
      (by rw [scatter_length, hpl]) (tableAt_lt p size i hb hi)
    rw [hinv i hi] at h1
    rw [h1, scatter_getElem? d p xs size i hb hx hi]
  · rw [List.getElem?_eq_none (by rw [scatter_length]; omega), List.getElem?_eq_none (by omega)]

end Sys2Proof.Machine
end

