-- ==== Sys2Proof/Laws/Store.lean ====
section
/-!
SUPPORT. Facts about a valid store (R28 to R32): the lengths of its round keys, that each layer keeps
the block width, that each layer and its inverse undo each other (R143, R153), and that `CFG` makes a
valid store (R212).
-/

namespace Sys2Proof.Machine

variable {c : Store}

theorem Store.Valid.width_pos (h : c.Valid) : 0 < c.width :=
  Nat.mul_pos h.n_pos h.m_pos

theorem Store.Valid.perm_length (h : c.Valid) : c.perm.length = c.width :=
  ((isBijection_iff _ _).mp h.perm_bijection).1

theorem Store.Valid.sbox_length (h : c.Valid) : c.sbox.length = 2 ^ c.n :=
  ((isBijection_iff _ _).mp h.sbox_bijection).1

theorem Store.Valid.invperm_bijection (h : c.Valid) : isBijection c.invperm c.width = true :=
  isBijection_of_left_inverse _ _ _ h.perm_bijection h.invperm_length h.invperm_inverts

theorem Store.Valid.invsbox_bijection (h : c.Valid) : isBijection c.invsbox (2 ^ c.n) = true :=
  isBijection_of_left_inverse _ _ _ h.sbox_bijection h.invsbox_length h.invsbox_inverts

/-- Every round key the engine reads has the block width (R28). -/
theorem Store.Valid.roundKeyAt_length (h : c.Valid) (i : Nat) (hi : i ≤ c.r) :
    (c.roundKeyAt i).length = c.width := by
  have hk := h.key_length
  simp only [Store.roundKeyAt, List.getD_eq_getElem?_getD, h.rk_window i hi, Option.getD_some,
    symbolsToBits_length, List.length_take, List.length_drop]
  rw [Nat.min_eq_left (by omega), Store.width, Nat.mul_comm]

/-! ## The layers on a block -/

theorem bitsToSymbols_block_length (b : Bits) (h : c.Valid) (hb : b.length = c.width) :
    (bitsToSymbols b c.n).length = c.m := by
  rw [bitsToSymbols_length, hb, Store.width, Nat.mul_comm, chunkCount_mul _ _ h.n_pos]

theorem subst_length (b : Bits) (h : c.Valid) (hb : b.length = c.width) :
    (subst c b).length = c.width := by
  rw [subst, symbolsToBits_length, substSyms, List.length_map, bitsToSymbols_block_length b h hb,
    Store.width, Nat.mul_comm]

theorem invSubst_length (b : Bits) (h : c.Valid) (hb : b.length = c.width) :
    (invSubst c b).length = c.width := by
  rw [invSubst, symbolsToBits_length, invSubstSyms, List.length_map,
    bitsToSymbols_block_length b h hb, Store.width, Nat.mul_comm]

theorem permute_length (b : Bits) (h : c.Valid) : (permute c b).length = c.width := by
  rw [permute, scatter_length, h.perm_length]

theorem invPermute_length (b : Bits) (h : c.Valid) : (invPermute c b).length = c.width := by
  rw [invPermute, scatter_length, h.invperm_length]

theorem invSubstSyms_substSyms (a : Syms) (h : c.Valid) (ha : ∀ x ∈ a, x < 2 ^ c.n) :
    invSubstSyms c (substSyms c a) = a := by
  simp only [invSubstSyms, substSyms, List.map_map]
  conv_rhs => rw [← List.map_id a]
  exact List.map_congr_left fun x hx => h.invsbox_inverts x (ha x hx)

theorem substSyms_invSubstSyms (a : Syms) (h : c.Valid) (ha : ∀ x ∈ a, x < 2 ^ c.n) :
    substSyms c (invSubstSyms c a) = a := by
  simp only [invSubstSyms, substSyms, List.map_map]
  conv_rhs => rw [← List.map_id a]
  exact List.map_congr_left fun x hx =>
    (tableAt_right_of_left _ _ _ _ h.sbox_bijection h.invsbox_inverts (ha x hx)).2

theorem substSyms_lt (a : Syms) (h : c.Valid) (ha : ∀ x ∈ a, x < 2 ^ c.n) :
    ∀ x ∈ substSyms c a, x < 2 ^ c.n := by
  intro x hx
  simp only [substSyms, List.mem_map] at hx
  obtain ⟨y, hy, rfl⟩ := hx
  exact tableAt_lt _ _ _ h.sbox_bijection (ha y hy)

theorem invSubstSyms_lt (a : Syms) (h : c.Valid) (ha : ∀ x ∈ a, x < 2 ^ c.n) :
    ∀ x ∈ invSubstSyms c a, x < 2 ^ c.n := by
  intro x hx
  simp only [invSubstSyms, List.mem_map] at hx
  obtain ⟨y, hy, rfl⟩ := hx
  exact tableAt_lt _ _ _ h.invsbox_bijection (ha y hy)

/-- `invsubst(subst(b)) = b` (R143 on blocks). -/
theorem invSubst_subst (b : Bits) (h : c.Valid) (hb : b.length = c.width) :
    invSubst c (subst c b) = b := by
  have hr := bitsToSymbols_lt b c.n
  rw [invSubst, subst, bitsToSymbols_symbolsToBits _ _ h.n_pos (substSyms_lt _ h hr),
    invSubstSyms_substSyms _ h hr, symbolsToBits_bitsToSymbols _ _ h.n_pos,
    zeroFill_multiple _ c.m _ h.n_pos (by rw [hb, Store.width, Nat.mul_comm])]

/-- `subst(invsubst(b)) = b` (R143 on blocks). -/
theorem subst_invSubst (b : Bits) (h : c.Valid) (hb : b.length = c.width) :
    subst c (invSubst c b) = b := by
  have hr := bitsToSymbols_lt b c.n
  rw [invSubst, subst, bitsToSymbols_symbolsToBits _ _ h.n_pos (invSubstSyms_lt _ h hr),
    substSyms_invSubstSyms _ h hr, symbolsToBits_bitsToSymbols _ _ h.n_pos,
    zeroFill_multiple _ c.m _ h.n_pos (by rw [hb, Store.width, Nat.mul_comm])]

/-- `invperm(perm(b)) = b` (R153). -/
theorem invPermute_permute (b : Bits) (h : c.Valid) (hb : b.length = c.width) :
    invPermute c (permute c b) = b :=
  scatter_inverse _ _ _ _ _ h.perm_bijection h.invperm_length h.invperm_inverts hb

/-- `perm(invperm(b)) = b` (R153). -/
theorem permute_invPermute (b : Bits) (h : c.Valid) (hb : b.length = c.width) :
    permute c (invPermute c b) = b :=
  scatter_inverse _ _ _ _ _ h.invperm_bijection h.perm_length
    (fun _ hx => (tableAt_right_of_left _ _ _ _ h.perm_bijection h.invperm_inverts hx).2) hb

/-! ## What `CFG` makes -/

theorem cfgValid_iff (n m r : Nat) (sbox perm : Syms) (key : Bits) :
    cfgValid n m r sbox perm key = true ↔
      1 ≤ n ∧ 1 ≤ m ∧ 1 ≤ r ∧ isBijection sbox (2 ^ n) = true ∧
        isBijection perm (n * m) = true ∧ n * (m + r) ≤ key.length := by
  simp [cfgValid, and_assoc]

/-- The check `CFG` makes is the spec's list of conditions (R211). -/
theorem cfgAccepts_iff (n m r : Nat) (sbox perm : Syms) (key : Bits) :
    CfgAccepts n m r sbox perm key ↔ cfgValid n m r sbox perm key = true := by
  rw [cfgValid_iff, isBijection_iff, isBijection_iff]
  exact ⟨fun h => ⟨h.1, h.2, h.3, ⟨h.4, h.5, h.6⟩, ⟨h.7, h.8, h.9⟩, h.10⟩,
    fun ⟨a, b, c, ⟨d, e, f⟩, ⟨g, i, j⟩, l⟩ => ⟨a, b, c, d, e, f, g, i, j, l⟩⟩

theorem drop_take_map_range (f : Nat → Nat) (k i m : Nat) (hi : i + m ≤ k) :
    ((((List.range k).map f).drop i).take m) = (List.range m).map fun j => f (i + j) := by
  apply List.ext_getElem?
  intro j
  by_cases hj : j < m
  · simp [hj, List.getElem?_drop, show i + j < k by omega]
  · simp [hj]

/-- A window of key symbols, as bits, is the window of key bits (R86, R160). -/
theorem symbolsToBits_keySymbols (n m r : Nat) (key : Bits) (i : Nat) (hi : i ≤ r)
    (hk : n * (m + r) ≤ key.length) :
    symbolsToBits (((keySymbols n m r key).drop i).take m) n = roundKey n m key i := by
  rw [keySymbols, drop_take_map_range _ _ _ _ (by omega)]
  have hw : (subBits key (i * n) (n * m)).length = m * n := by
    rw [subBits_length, Nat.mul_comm]
    have : n * (i + m) ≤ n * (m + r) := Nat.mul_le_mul_left n (by omega)
    rw [Nat.mul_comm i n, ← Nat.mul_add]
    omega
  refine Eq.trans ?_ (flatMap_subBits (subBits key (i * n) (n * m)) m n hw)
  simp only [symbolsToBits, List.flatMap_def, List.map_map]
  congr 1
  apply List.map_congr_left
  intro j hj
  have hj := List.mem_range.mp hj
  have hs : subBits (subBits key (i * n) (n * m)) (j * n) n = subBits key ((i + j) * n) n := by
    have h1 : (j + 1) * n ≤ m * n := Nat.mul_le_mul_right n hj
    rw [Nat.succ_mul] at h1
    simp only [subBits, List.drop_take, List.drop_drop, List.take_take]
    rw [Nat.min_eq_left (by rw [Nat.mul_comm n m]; omega), Nat.add_mul]
  have hl : (subBits key ((i + j) * n) n).length = n := by
    apply subBits_length
    have : n * (i + j + 1) ≤ n * (m + r) := Nat.mul_le_mul_left n (by omega)
    rw [Nat.mul_comm (i + j) n, ← Nat.mul_succ]
    exact Nat.le_trans this hk
  simp only [Function.comp_apply, symAt, hs]
  have h := bitsOf_val (subBits key ((i + j) * n) n)
  rw [hl] at h
  exact h

/-- A successful `CFG` establishes every invariant of the store (R212). -/
theorem storeOf_valid (n m r : Nat) (sbox perm : Syms) (key : Bits)
    (h : cfgValid n m r sbox perm key = true) : (storeOf n m r sbox perm key).Valid := by
  obtain ⟨hn, hm, hr, hs, hp, hk⟩ := (cfgValid_iff n m r sbox perm key).mp h
  exact
    { n_pos := hn
      m_pos := hm
      r_pos := hr
      key_length := by simp [storeOf, keySymbols]
      key_range := by
        intro x hx
        simp only [storeOf, keySymbols, List.mem_map] at hx
        obtain ⟨j, -, rfl⟩ := hx
        exact symAt_lt _ _ _
      rk_length := by simp [storeOf, keySchedule]
      rk_window := by
        intro i hi
        simp only [storeOf] at hi ⊢
        rw [symbolsToBits_keySymbols n m r key i hi hk]
        simp [keySchedule, show i < r + 1 by omega]
      sbox_bijection := hs
      invsbox_length := by
        simp only [storeOf]
        rw [invertTable_length, ((isBijection_iff _ _).mp hs).1]
      invsbox_inverts := fun x hx => invertTable_left _ _ _ hs hx
      perm_bijection := hp
      invperm_length := by
        simp only [storeOf, Store.width]
        rw [invertTable_length, ((isBijection_iff _ _).mp hp).1]
      invperm_inverts := fun x hx => invertTable_left _ _ _ hp hx }

end Sys2Proof.Machine
end

