-- ==== Sys2Proof/Laws/Engine.lean ====
section
/-!
SUPPORT. The round engine: what the micro-steps of R170 do to the registers, said once for a whole
encryption and a whole decryption, and that the two functions of R176 and R182 are inverse (R183).
-/

namespace Sys2Proof.Machine

variable (c : Store)

theorem microSteps_add (j k : Nat) (s : State) :
    microSteps c (j + k) s = microSteps c k (microSteps c j s) := by
  induction j generalizing s with
  | zero => simp [microSteps]
  | succ j ih => rw [Nat.add_right_comm]; exact ih _

theorem microSteps_succ (k : Nat) (s : State) :
    microSteps c (k + 1) s = microStep c (microSteps c k s) := by
  rw [microSteps_add]; rfl

theorem range'_concat_one (j : Nat) : List.range' 1 (j + 1) = List.range' 1 j ++ [j + 1] := by
  rw [List.range'_concat]
  simp [Nat.add_comm]

/-- After the whitening and `j < R` micro-steps of an encryption, the engine has done rounds `1 … j`. -/
theorem microSteps_encrypt_rounds (a : Bits) (s : State) (j : Nat) (hj : j < c.r) :
    microSteps c j (stepWhiten c a s) =
      { s with
        blk := (List.range' 1 j).foldl (encRound c) (xorBits a (c.roundKeyAt 0))
        rnd := j
        phase := if j = 0 then .whitened else .round } := by
  induction j with
  | zero => rfl
  | succ j ih =>
    rw [microSteps_succ, ih (by omega), range'_concat_one, List.foldl_append]
    by_cases h0 : j = 0
    · subst h0
      simp [microStep, hj, stepRound, encRound]
    · simp [microStep, hj, h0, stepRound, encRound]

/-- The `R`-th micro-step of an encryption is the final round. -/
theorem microSteps_encrypt_final (a : Bits) (s : State) (hr : 1 ≤ c.r) :
    microSteps c c.r (stepWhiten c a s) =
      { s with blk := encBlock c a, rnd := c.r, phase := .finalRound } := by
  obtain ⟨j, hj⟩ : ∃ j, c.r = j + 1 := ⟨c.r - 1, by omega⟩
  rw [show microSteps c c.r (stepWhiten c a s) = microSteps c (j + 1) (stepWhiten c a s) by rw [hj],
    microSteps_succ, microSteps_encrypt_rounds c a s j (by omega)]
  by_cases h0 : j = 0
  · subst h0
    simp [microStep, stepFinal, encBlock, hj]
  · simp [microStep, stepFinal, encBlock, h0, hj]

/-- A whole encryption on the registers computes `enc` (R171, R176): `S` holds the result, `RND = R`,
the engine is idle, and nothing else has changed. -/
theorem runEncrypt_eq (a : Bits) (s : State) (hr : 1 ≤ c.r) :
    runEncrypt c a s = { s with blk := encBlock c a, rnd := c.r, phase := .idle } := by
  rw [runEncrypt, microSteps_add, microSteps_encrypt_final c a s hr]
  rfl

/-- After undoing the final round and `j < R` micro-steps of a decryption, the engine has undone rounds
`R-1 … R-j`. -/
theorem microSteps_decrypt_rounds (a : Bits) (s : State) (j : Nat) (hj : j < c.r) :
    microSteps c j (stepUnFinal c a s) =
      { s with
        blk := ((List.range' 1 (c.r - 1)).reverse.take j).foldl (decRound c)
          (invSubst c (xorBits a (c.roundKeyAt c.r)))
        rnd := c.r - j
        phase := if j = 0 then .unFinal else .unRound } := by
  induction j with
  | zero => rfl
  | succ j ih =>
    have hget : (List.range' 1 (c.r - 1)).reverse[j]? = some (c.r - j - 1) := by
      rw [List.getElem?_reverse (by simp; omega)]
      simp only [List.length_range']
      rw [List.getElem?_range' (by omega)]
      congr 1
      omega
    rw [microSteps_succ, ih (by omega), List.take_add_one, hget, List.foldl_append]
    have h1 : 1 < c.r - j := by omega
    by_cases h0 : j = 0
    · subst h0
      simp [microStep, show 1 < c.r by omega, stepUnRound, decRound]
    · simp [microStep, h1, h0, stepUnRound, decRound, Nat.sub_sub]

/-- The `R`-th micro-step of a decryption undoes the whitening. -/
theorem microSteps_decrypt_final (a : Bits) (s : State) (hr : 1 ≤ c.r) :
    microSteps c c.r (stepUnFinal c a s) =
      { s with blk := decBlock c a, rnd := 0, phase := .unWhitened } := by
  obtain ⟨j, hj⟩ : ∃ j, c.r = j + 1 := ⟨c.r - 1, by omega⟩
  rw [show microSteps c c.r (stepUnFinal c a s) = microSteps c (j + 1) (stepUnFinal c a s) by rw [hj],
    microSteps_succ, microSteps_decrypt_rounds c a s j (by omega)]
  have ht : (List.range' 1 (c.r - 1)).reverse.take j = (List.range' 1 (c.r - 1)).reverse :=
    List.take_of_length_le (by simp; omega)
  have h1 : ¬ 1 < c.r - j := by omega
  rw [ht]
  by_cases h0 : j = 0
  · subst h0
    simp [microStep, stepUnWhiten, decBlock, hj]
  · simp [microStep, stepUnWhiten, decBlock, h0, h1]

/-- A whole decryption on the registers computes `dec` (R177, R182). -/
theorem runDecrypt_eq (a : Bits) (s : State) (hr : 1 ≤ c.r) :
    runDecrypt c a s = { s with blk := decBlock c a, rnd := 0, phase := .idle } := by
  rw [runDecrypt, microSteps_add, microSteps_decrypt_final c a s hr]
  rfl

/-! ## Width and inverse -/

variable {c}

theorem xorBits_key_length (b : Bits) (i : Nat) (h : c.Valid) (hb : b.length = c.width)
    (hi : i ≤ c.r) : (xorBits b (c.roundKeyAt i)).length = c.width := by
  rw [xorBits_length, hb, h.roundKeyAt_length i hi, Nat.min_self]

theorem encRound_length (b : Bits) (i : Nat) (h : c.Valid) (hi : i ≤ c.r) :
    (encRound c b i).length = c.width :=
  xorBits_key_length _ i h (permute_length _ h) hi

theorem foldl_encRound_length (l : List Nat) (b : Bits) (h : c.Valid) (hb : b.length = c.width)
    (hl : ∀ i ∈ l, i ≤ c.r) : (l.foldl (encRound c) b).length = c.width := by
  induction l generalizing b with
  | nil => exact hb
  | cons i l ih =>
    exact ih _ (encRound_length _ _ h (hl i (by simp))) (fun j hj => hl j (by simp [hj]))

theorem encBlock_length (x : Bits) (h : c.Valid) (hx : x.length = c.width) :
    (encBlock c x).length = c.width := by
  apply xorBits_key_length _ _ h _ (Nat.le_refl _)
  apply subst_length _ h
  apply foldl_encRound_length _ _ h (xorBits_key_length _ _ h hx (Nat.zero_le _))
  intro i hi
  rw [List.mem_range'_1] at hi
  omega

theorem decRound_length (b : Bits) (i : Nat) (h : c.Valid) :
    (decRound c b i).length = c.width :=
  invSubst_length _ h (invPermute_length _ h)

theorem foldl_decRound_length (l : List Nat) (b : Bits) (h : c.Valid) (hb : b.length = c.width) :
    (l.foldl (decRound c) b).length = c.width := by
  induction l generalizing b with
  | nil => exact hb
  | cons i l ih => exact ih _ (decRound_length _ _ h)

theorem decBlock_length (y : Bits) (h : c.Valid) (hy : y.length = c.width) :
    (decBlock c y).length = c.width := by
  apply xorBits_key_length _ _ h _ (Nat.zero_le _)
  apply foldl_decRound_length _ _ h
  exact invSubst_length _ h (xorBits_key_length _ _ h hy (Nat.le_refl _))

theorem xorBits_key_cancel (b : Bits) (i : Nat) (h : c.Valid) (hb : b.length = c.width)
    (hi : i ≤ c.r) : xorBits (xorBits b (c.roundKeyAt i)) (c.roundKeyAt i) = b :=
  xorBits_cancel _ _ (by rw [hb, h.roundKeyAt_length i hi])

/-- Each `DEC` round undoes the `ENC` round of the same index. -/
theorem decRound_encRound (b : Bits) (i : Nat) (h : c.Valid) (hb : b.length = c.width)
    (hi : i ≤ c.r) : decRound c (encRound c b i) i = b := by
  rw [decRound, encRound, xorBits_key_cancel _ _ h (permute_length _ h) hi,
    invPermute_permute _ h (subst_length _ h hb), invSubst_subst _ h hb]

theorem encRound_decRound (b : Bits) (i : Nat) (h : c.Valid) (hb : b.length = c.width)
    (hi : i ≤ c.r) : encRound c (decRound c b i) i = b := by
  rw [decRound, encRound, subst_invSubst _ h (invPermute_length _ h),
    permute_invPermute _ h (xorBits_key_length _ _ h hb hi), xorBits_key_cancel _ _ h hb hi]

theorem foldl_decRound_encRound (l : List Nat) (b : Bits) (h : c.Valid) (hb : b.length = c.width)
    (hl : ∀ i ∈ l, i ≤ c.r) :
    l.reverse.foldl (decRound c) (l.foldl (encRound c) b) = b := by
  induction l generalizing b with
  | nil => rfl
  | cons i l ih =>
    have hi := hl i (by simp)
    rw [List.reverse_cons, List.foldl_append, List.foldl_cons (l := l),
      ih _ (encRound_length _ _ h hi) (fun j hj => hl j (by simp [hj]))]
    exact decRound_encRound b i h hb hi

theorem foldl_encRound_decRound (l : List Nat) (b : Bits) (h : c.Valid) (hb : b.length = c.width)
    (hl : ∀ i ∈ l, i ≤ c.r) :
    l.foldl (encRound c) (l.reverse.foldl (decRound c) b) = b := by
  induction l generalizing b with
  | nil => rfl
  | cons i l ih =>
    have hi := hl i (by simp)
    rw [List.reverse_cons, List.foldl_append, List.foldl_cons, List.foldl_cons, List.foldl_nil,
      encRound_decRound _ i h (foldl_decRound_length _ _ h hb) hi]
    exact ih b hb (fun j hj => hl j (by simp [hj]))

theorem mem_rounds_le (i : Nat) (hi : i ∈ List.range' 1 (c.r - 1)) : i ≤ c.r := by
  rw [List.mem_range'_1] at hi
  omega

/-- `dec(enc(x)) = x` (R183), as functions. -/
theorem decBlock_encBlock (x : Bits) (h : c.Valid) (hx : x.length = c.width) :
    decBlock c (encBlock c x) = x := by
  have h0 := xorBits_key_length x 0 h hx (Nat.zero_le _)
  have hf := foldl_encRound_length (List.range' 1 (c.r - 1)) _ h h0 mem_rounds_le
  rw [decBlock, encBlock, xorBits_key_cancel _ _ h (subst_length _ h hf) (Nat.le_refl _),
    invSubst_subst _ h hf, foldl_decRound_encRound _ _ h h0 mem_rounds_le,
    xorBits_key_cancel _ _ h hx (Nat.zero_le _)]

/-- `enc(dec(y)) = y` (R183), as functions. -/
theorem encBlock_decBlock (y : Bits) (h : c.Valid) (hy : y.length = c.width) :
    encBlock c (decBlock c y) = y := by
  have h0 := xorBits_key_length y c.r h hy (Nat.le_refl _)
  have hi := invSubst_length _ h h0
  have hf := foldl_decRound_length (List.range' 1 (c.r - 1)).reverse _ h hi
  rw [decBlock, encBlock, xorBits_key_cancel _ _ h hf (Nat.zero_le _),
    foldl_encRound_decRound _ _ h hi mem_rounds_le, subst_invSubst _ h h0,
    xorBits_key_cancel _ _ h hy (Nat.le_refl _)]

end Sys2Proof.Machine
end

