-- ==== Sys2Proof/Laws/Text.lean ====
section
/-!
SUPPORT. Padding and text decoding (`40_codec.md` R117 to R124): where the last marker stands, what
`bitsToText` makes of it, and that it undoes padding.
-/

namespace Sys2Proof.Machine

theorem lastMarker_zeros (z : Nat) : lastMarker (zeros z) = none := by
  induction z with
  | zero => rfl
  | succ z ih =>
    simp only [zeros] at ih
    simp [zeros, List.replicate_succ, lastMarker, ih, Config.markerBit]

/-- The marker of a padded string is its last one. -/
theorem lastMarker_marked (a : Bits) (z : Nat) :
    lastMarker (a ++ true :: zeros z) = some a.length := by
  induction a with
  | nil => simp [lastMarker, lastMarker_zeros, Config.markerBit]
  | cons x xs ih => simp [lastMarker, ih]

/-- Every string is all zeros, or something, a marker, and zeros. -/
theorem zeros_or_marked (a : Bits) :
    a = zeros a.length ∨ ∃ b z, a = b ++ true :: zeros z := by
  induction a with
  | nil => exact .inl rfl
  | cons x xs ih =>
    rcases ih with h | ⟨b, z, h⟩
    · cases x with
      | false => left; rw [h]; simp [zeros, List.replicate_succ]
      | true => exact .inr ⟨[], xs.length, by rw [← h]; rfl⟩
    · exact .inr ⟨x :: b, z, by rw [h]; rfl⟩

/-- `p` is the position of the last marker: it holds a `1`, and no later position does. -/
theorem lastMarker_of_last (a : Bits) (p : Nat) (hp : a[p]? = some true)
    (hlast : ∀ i : Nat, p < i → a[i]? ≠ some true) : lastMarker a = some p := by
  rcases zeros_or_marked a with h | ⟨b, z, rfl⟩
  · rw [h] at hp
    simp [zeros, List.getElem?_replicate] at hp
  · rw [lastMarker_marked]
    by_contra hne
    have hb : (b ++ true :: zeros z)[b.length]? = some true := by simp
    rcases Nat.lt_or_gt_of_ne (fun h => hne (congrArg some h)) with h | h
    · rw [List.getElem?_append_right (by omega)] at hp
      obtain ⟨d, rfl⟩ : ∃ d, p = b.length + (d + 1) := ⟨p - b.length - 1, by omega⟩
      simp [zeros, List.getElem?_replicate] at hp
    · exact hlast _ h hb

theorem lastMarker_of_none (a : Bits) (h : ∀ i : Nat, a[i]? ≠ some true) : lastMarker a = none := by
  rcases zeros_or_marked a with h' | ⟨b, z, rfl⟩
  · rw [h']; exact lastMarker_zeros _
  · exact absurd (show (b ++ true :: zeros z)[b.length]? = some true by simp) (h _)

/-! The three outcomes of `bitsToText` by where the last marker stands (R117 to R119). -/

theorem bitsToText_noMarker (a : Bits) (h : lastMarker a = none) : bitsToText a = .noMarker := by
  simp [bitsToText, h]

theorem bitsToText_text (a : Bits) (p : Nat) (h : lastMarker a = some p) (h8 : p % 8 = 0) :
    bitsToText a = .text ((List.range (p / 8)).map fun t => symAt 8 (subBits a 0 p) t) := by
  have h8' : p % Config.charWidth = 0 := h8
  simp only [bitsToText, h]
  rw [if_pos h8']
  rfl

theorem bitsToText_misaligned (a : Bits) (p : Nat) (h : lastMarker a = some p) (h8 : p % 8 ≠ 0) :
    bitsToText a = .misaligned := by
  have h8' : ¬ p % Config.charWidth = 0 := h8
  simp only [bitsToText, h]
  rw [if_neg h8']

/-- Padding is undone: the text before the marker, read as 8-bit code points. -/
theorem bitsToText_marked (s : Text) (z : Nat) (hs : ∀ x ∈ s, x < 256) :
    bitsToText (textToBits s ++ true :: zeros z) = .text s := by
  have hl := textToBits_length s
  rw [bitsToText_text _ _ (lastMarker_marked _ _) (by omega), hl,
    Nat.mul_div_cancel _ (by omega)]
  congr 1
  have hsub : subBits (textToBits s ++ true :: zeros z) 0 (s.length * 8) = textToBits s := by
    rw [subBits_append_left _ _ _ _ (by omega), ← hl, subBits_all]
  rw [hsub]
  apply List.ext_getElem?
  intro j
  by_cases hj : j < s.length
  · have hsj : s[j]? = some s[j] := List.getElem?_eq_getElem hj
    rw [List.getElem?_map, List.getElem?_range hj, Option.map_some, hsj]
    simp only [symAt]
    rw [textToBits, subBits_flatMap (bitsOf Config.charWidth) 8 s (by simp [Config.charWidth]) j _ hsj,
      val_bitsOf]
    exact congrArg some (Nat.mod_eq_of_lt (hs _ (List.getElem_mem hj)))
  · simp [hj]

/-- The padded length is the least multiple of `k` above the message length (R83, R121). -/
theorem padForBlocks_length (a : Bits) (k : Nat) (hk : 0 < k) :
    ∃ j, (padForBlocks a k).length = j * k ∧ a.length < j * k ∧ j * k ≤ a.length + k := by
  have h1 := Nat.div_add_mod (a.length + 1) k
  have h2 := Nat.mod_lt (a.length + 1) hk
  simp only [padForBlocks, List.length_append, List.length_cons, zeros_length, padZeros]
  by_cases h0 : (a.length + 1) % k = 0
  · refine ⟨(a.length + 1) / k, ?_⟩
    rw [h0, Nat.sub_zero, Nat.mod_self, Nat.mul_comm]
    omega
  · refine ⟨(a.length + 1) / k + 1, ?_⟩
    rw [Nat.mod_eq_of_lt (show k - (a.length + 1) % k < k by omega), Nat.add_mul, Nat.one_mul,
      Nat.mul_comm]
    omega

theorem padZeros_lt (len k : Nat) (hk : 0 < k) : padZeros len k < k :=
  Nat.mod_lt _ hk

end Sys2Proof.Machine
end

