-- ==== Sys2Proof/Laws/Ctr.lean ====
section
/-!
SUPPORT. The CTR driver: what a pass over a stream returns and what it leaves in the registers (R193 to
R195), said once; and the keystream form of its output (R192).
-/

namespace Sys2Proof.Machine

variable (c : Store)

/-- Payload block `i` of the output: a function of the IV, the block and `i` only (R195). -/
def ctrBlock (c : Store) (iv : Bits) (stream : Blocks) (i : Nat) : Bits :=
  xorBits (memRead stream i) (encBlock c (counter c.width iv i))

/-- The registers after the payload blocks up to index `i` (R194). -/
def ctrAfter (c : Store) (i : Nat) (s : State) : State :=
  { s with
    idx := i
    cnt := counter c.width s.iv i
    blk := encBlock c (counter c.width s.iv i)
    rnd := c.r
    phase := .idle }

theorem ctrLoop_eq (stream : Blocks) (hr : 1 ≤ c.r) (k i : Nat) (out : Blocks) (s : State) :
    ctrLoop c stream k i out s =
      (out ++ (List.range k).map (fun j => ctrBlock c s.iv stream (i + j)),
        if k = 0 then s else ctrAfter c (i + k - 1) s) := by
  induction k generalizing i out s with
  | zero => simp [ctrLoop]
  | succ k ih =>
    rw [ctrLoop]
    simp only [runEncrypt_eq c _ _ hr]
    rw [ih]
    congr 1
    · simp only [memWrite, List.range_succ_eq_map, List.map_cons, List.map_map, List.append_assoc]
      simp only [List.singleton_append, ctrBlock, Nat.add_zero, List.append_cancel_left_eq,
        List.cons.injEq, true_and]
      apply List.map_congr_left
      intro j _
      simp only [Function.comp_apply, show i + 1 + j = i + (j + 1) by omega]
    · by_cases hk : k = 0
      · subst hk
        simp [ctrAfter]
      · simp [hk, ctrAfter, show i + 1 + k - 1 = i + k by omega]

/-- A CTR pass (R193): its output, and its registers. -/
theorem ctrRun_eq (stream out : Blocks) (s : State) (hr : 1 ≤ c.r) :
    ctrRun c stream out s =
      (out ++ (List.range (stream.length - 1)).map
          (fun j => ctrBlock c (memRead stream 0) stream (j + 1)),
        if stream.length - 1 = 0 then { s with iv := memRead stream 0, idx := 0 }
        else { ctrAfter c (stream.length - 1) { s with iv := memRead stream 0 } with idx := 0 }) := by
  rw [ctrRun, ctrLoop_eq c stream hr]
  congr 1
  · simp only [Nat.add_comm]
  · by_cases h : stream.length - 1 = 0
    · simp [h]
    · simp [h, show 1 + (stream.length - 1) - 1 = stream.length - 1 by omega]

/-- The registers a CTR pass leaves, in the claims' terms. -/
theorem ctrRun_registers (stream out : Blocks) (s : State) (hr : 1 ≤ c.r) :
    CtrRegisters c s (ctrRun c stream out s).2 (memRead stream 0) (stream.length - 1) := by
  rw [ctrRun_eq c stream out s hr]
  by_cases h : stream.length - 1 = 0
  · simp only [h, if_true]
    exact ⟨rfl, rfl, fun h0 => absurd h0 (by omega), fun _ => ⟨rfl, rfl, rfl, rfl⟩⟩
  · simp only [h, if_false]
    exact ⟨rfl, rfl, fun _ => ⟨rfl, rfl, rfl, rfl⟩, fun h0 => absurd h0 h⟩

/-- A CTR pass writes no other register. -/
theorem ctrRun_frame (stream out : Blocks) (s : State) (hr : 1 ≤ c.r) :
    let t := (ctrRun c stream out s).2
    t.engine = s.engine ∧ t.err = s.err ∧ t.degen = s.degen ∧ t.seen = s.seen ∧
      t.dseen = s.dseen ∧ t.pending = s.pending ∧ t.response = s.response := by
  rw [ctrRun_eq c stream out s hr]
  by_cases h : stream.length - 1 = 0 <;> simp [h, ctrAfter]

/-! ## Counters and widths -/

@[simp] theorem counter_length (w : Nat) (iv : Bits) (i : Nat) : (counter w iv i).length = w := by
  simp [counter]

theorem val_counter (w : Nat) (iv : Bits) (i : Nat) :
    val (counter w iv i) = (val iv + (i - 1)) % 2 ^ w := by
  rw [counter, val_bitsOf, Nat.mod_mod]

variable {c}

theorem encBlock_counter_length (iv : Bits) (i : Nat) (h : c.Valid) :
    (encBlock c (counter c.width iv i)).length = c.width :=
  encBlock_length _ h (counter_length _ _ _)

theorem keystream_length (iv : Bits) (k : Nat) (h : c.Valid) :
    (keystream c iv k).length = k * c.width := by
  rw [keystream, flatMap_length _ c.width _ (fun j _ => encBlock_counter_length _ _ h)]
  simp

theorem keystream_succ (iv : Bits) (k : Nat) :
    keystream c iv (k + 1) =
      keystream c iv k ++ encBlock c (counter c.width iv (k + 1)) := by
  simp [keystream, List.range_succ]

/-- The payload of a CTR pass over blocks of the right width, put together: the joined blocks mixed
with the keystream (R190, R192). -/
theorem flatten_ctrBlocks (iv : Bits) (stream : Blocks) (k : Nat) (h : c.Valid)
    (hw : ∀ j < k, (memRead stream (j + 1)).length = c.width) :
    ((List.range k).map fun j => ctrBlock c iv stream (j + 1)).flatten =
      xorBits ((List.range k).map fun j => memRead stream (j + 1)).flatten (keystream c iv k) := by
  induction k with
  | zero => simp [keystream, xorBits]
  | succ k ih =>
    have ih := ih fun j hj => hw j (by omega)
    rw [keystream_succ, List.range_succ]
    simp only [List.map_append, List.flatten_append, List.map_cons, List.map_nil,
      List.flatten_cons, List.flatten_nil, List.append_nil]
    rw [ih, xorBits_append]
    · rfl
    · rw [keystream_length _ _ h, ← List.flatMap_def, flatMap_length _ c.width]
      · simp
      · intro j hj
        exact hw j (by have := List.mem_range.mp hj; omega)

theorem memRead_cons_succ (b : Bits) (bs : Blocks) (j : Nat) :
    memRead (b :: bs) (j + 1) = memRead bs j := by simp [memRead]

/-- Reading a stream block by block gives the stream. -/
theorem map_memRead (bs : Blocks) : (List.range bs.length).map (memRead bs) = bs := by
  apply List.ext_getElem?
  intro j
  by_cases hj : j < bs.length <;> simp [memRead, hj]

theorem memRead_width (bs : Blocks) (w j : Nat) (h : ∀ b ∈ bs, b.length = w) (hj : j < bs.length) :
    (memRead bs j).length = w := by
  simp only [memRead, List.getD_eq_getElem?_getD, List.getElem?_eq_getElem hj, Option.getD_some]
  exact h _ (List.getElem_mem hj)

/-- The output of a CTR pass over `v :: p`, block by block (R190). -/
theorem ctrRun_output (v : Bits) (p out : Blocks) (s : State) (h : c.Valid) :
    (ctrRun c (v :: p) out s).1 =
      out ++ ctrTransform c v p := by
  rw [ctrRun_eq c _ _ _ h.r_pos]
  dsimp only [ctrTransform]
  congr 1
  apply List.ext_getElem?
  intro j
  by_cases hj : j < p.length <;> simp [hj, ctrBlock, memRead]

/-- The output of a CTR pass over blocks of the right width, put together (R192, R203, R204). -/
theorem joinBlocks_ctrRun (v : Bits) (p out : Blocks) (s : State) (h : c.Valid)
    (hw : ∀ b ∈ p, b.length = c.width) :
    joinBlocks (ctrRun c (v :: p) out s).1 =
      joinBlocks out ++ xorBits p.flatten (keystream c v p.length) := by
  rw [ctrRun_eq c _ _ _ h.r_pos]
  simp only [joinBlocks, List.flatten_append, List.length_cons, Nat.add_sub_cancel]
  rw [flatten_ctrBlocks _ _ _ h
    (fun j hj => by rw [memRead_cons_succ]; exact memRead_width _ _ _ hw hj)]
  simp only [memRead_cons_succ, map_memRead]
  rfl

/-- Mixing a payload block twice with its keystream gives it back (R197). -/
theorem xorBits_keystream_cancel (b iv : Bits) (i : Nat) (h : c.Valid) (hb : b.length = c.width) :
    xorBits (xorBits b (encBlock c (counter c.width iv i))) (encBlock c (counter c.width iv i)) =
      b :=
  xorBits_cancel _ _ (by rw [hb, encBlock_counter_length _ _ h])

end Sys2Proof.Machine
end

