-- ==== Sys2Proof/Laws/State.lean ====
section
/-!
SUPPORT. One lemma per field for each update of `State` (`raiseErr`, `raiseFatal`, `complete`, the
reset), and the frame of each micro-step, so that no later proof unfolds a record update.
-/

namespace Sys2Proof.Machine

section raiseErr
variable (e : ErrClass) (s : State)
@[simp] theorem raiseErr_engine : (raiseErr e s).engine = s.engine := rfl
@[simp] theorem raiseErr_err : (raiseErr e s).err = some e := rfl
@[simp] theorem raiseErr_degen : (raiseErr e s).degen = false := rfl
@[simp] theorem raiseErr_seen : (raiseErr e s).seen = s.seen ||| seenMask e := rfl
@[simp] theorem raiseErr_dseen : (raiseErr e s).dseen = s.dseen := rfl
@[simp] theorem raiseErr_blk : (raiseErr e s).blk = s.blk := rfl
@[simp] theorem raiseErr_rnd : (raiseErr e s).rnd = s.rnd := rfl
@[simp] theorem raiseErr_phase : (raiseErr e s).phase = .idle := rfl
@[simp] theorem raiseErr_iv : (raiseErr e s).iv = s.iv := rfl
@[simp] theorem raiseErr_cnt : (raiseErr e s).cnt = s.cnt := rfl
@[simp] theorem raiseErr_idx : (raiseErr e s).idx = 0 := rfl
@[simp] theorem raiseErr_pending : (raiseErr e s).pending = s.pending := rfl
@[simp] theorem raiseErr_response : (raiseErr e s).response = some ⟨some e, false, none⟩ := rfl
end raiseErr

section raiseFatal
variable (s : State)
@[simp] theorem raiseFatal_engine : (raiseFatal s).engine = .failed := rfl
@[simp] theorem raiseFatal_err : (raiseFatal s).err = some .configurationError := rfl
@[simp] theorem raiseFatal_degen : (raiseFatal s).degen = false := rfl
@[simp] theorem raiseFatal_seen :
    (raiseFatal s).seen = s.seen ||| seenMask .configurationError := rfl
@[simp] theorem raiseFatal_dseen : (raiseFatal s).dseen = s.dseen := rfl
@[simp] theorem raiseFatal_blk : (raiseFatal s).blk = s.blk := rfl
@[simp] theorem raiseFatal_rnd : (raiseFatal s).rnd = s.rnd := rfl
@[simp] theorem raiseFatal_phase : (raiseFatal s).phase = .idle := rfl
@[simp] theorem raiseFatal_iv : (raiseFatal s).iv = s.iv := rfl
@[simp] theorem raiseFatal_cnt : (raiseFatal s).cnt = s.cnt := rfl
@[simp] theorem raiseFatal_idx : (raiseFatal s).idx = 0 := rfl
@[simp] theorem raiseFatal_pending : (raiseFatal s).pending = s.pending := rfl
@[simp] theorem raiseFatal_response :
    (raiseFatal s).response = some ⟨some .configurationError, false, none⟩ := rfl
end raiseFatal

section complete
variable (d : Bool) (q : Option Result) (s : State)
@[simp] theorem complete_engine : (complete d q s).engine = s.engine := rfl
@[simp] theorem complete_err : (complete d q s).err = none := rfl
@[simp] theorem complete_degen : (complete d q s).degen = d := rfl
@[simp] theorem complete_seen : (complete d q s).seen = s.seen := rfl
@[simp] theorem complete_dseen : (complete d q s).dseen = (s.dseen || d) := rfl
@[simp] theorem complete_blk : (complete d q s).blk = s.blk := rfl
@[simp] theorem complete_rnd : (complete d q s).rnd = s.rnd := rfl
@[simp] theorem complete_phase : (complete d q s).phase = s.phase := rfl
@[simp] theorem complete_iv : (complete d q s).iv = s.iv := rfl
@[simp] theorem complete_cnt : (complete d q s).cnt = s.cnt := rfl
@[simp] theorem complete_idx : (complete d q s).idx = s.idx := rfl
@[simp] theorem complete_pending : (complete d q s).pending = s.pending := rfl
@[simp] theorem complete_response : (complete d q s).response = some ⟨none, d, q⟩ := rfl
end complete

section resetTo
variable (rest : List HostEvent)
@[simp] theorem resetTo_engine : (resetTo rest).engine = .unconfigured := rfl
@[simp] theorem resetTo_err : (resetTo rest).err = none := rfl
@[simp] theorem resetTo_degen : (resetTo rest).degen = false := rfl
@[simp] theorem resetTo_seen : (resetTo rest).seen = 0 := rfl
@[simp] theorem resetTo_dseen : (resetTo rest).dseen = false := rfl
@[simp] theorem resetTo_blk : (resetTo rest).blk = [] := rfl
@[simp] theorem resetTo_rnd : (resetTo rest).rnd = 0 := rfl
@[simp] theorem resetTo_phase : (resetTo rest).phase = .idle := rfl
@[simp] theorem resetTo_iv : (resetTo rest).iv = [] := rfl
@[simp] theorem resetTo_cnt : (resetTo rest).cnt = [] := rfl
@[simp] theorem resetTo_idx : (resetTo rest).idx = 0 := rfl
@[simp] theorem resetTo_pending : (resetTo rest).pending = rest := rfl
@[simp] theorem resetTo_response : (resetTo rest).response = none := rfl
end resetTo

end Sys2Proof.Machine
end

