-- ==== Sys2Proof/Laws/Ops.lean ====
section
/-!
SUPPORT. What the shared operations can do, said once: the lifecycle check, the operand checks, the
two ways a command ends, and the decoding of a text answer.
-/

namespace Sys2Proof.Machine

/-! ## Checks -/

theorem whenReady_ready (s : State) (c : Store) (run : Store → Answer) (h : s.engine = .ready c) :
    whenReady s run = run c := by
  simp [whenReady, h]

theorem whenReady_notReady (s : State) (run : Store → Answer) (h : s.NotReady) :
    whenReady s run = answerErr .illegalCommand s := by
  unfold whenReady
  cases he : s.engine with
  | ready c => exact absurd he (h c)
  | _ => rfl

/-- Either the core is `Ready` with a store, or it is not. -/
theorem ready_or_notReady (s : State) : (∃ c, s.engine = .ready c) ∨ s.NotReady := by
  cases h : s.engine with
  | ready c => exact .inl ⟨c, rfl⟩
  | unconfigured => exact .inr fun c hc => by simp [h] at hc
  | failed => exact .inr fun c hc => by simp [h] at hc

theorem whenWidth_zero (s : State) (run : Answer) :
    whenWidth 0 s run = answerErr .illegalCommand s := rfl

theorem whenWidth_pos (k : Nat) (s : State) (run : Answer) (h : 0 < k) :
    whenWidth k s run = run := by
  simp [whenWidth, Nat.ne_of_gt h]

theorem whenBlock_fits (c : Store) (a : Bits) (s : State) (run : Answer) (h : a.length = c.width) :
    whenBlock c a s run = run := by
  simp [whenBlock, h]

theorem whenBlock_misfits (c : Store) (a : Bits) (s : State) (run : Answer)
    (h : a.length ≠ c.width) : whenBlock c a s run = answerErr .lengthMismatch s := by
  simp [whenBlock, h]

theorem whenBlockSyms_fits (c : Store) (a : Syms) (s : State) (run : Answer)
    (h : a.length = c.m) (hr : ∀ x ∈ a, x < 2 ^ c.n) : whenBlockSyms c a s run = run := by
  simp [whenBlockSyms, h, (allBelow_iff _ _).mpr hr]

theorem whenBlockSyms_misfits (c : Store) (a : Syms) (s : State) (run : Answer)
    (h : a.length ≠ c.m) : whenBlockSyms c a s run = answerErr .lengthMismatch s := by
  simp [whenBlockSyms, h]

theorem whenBlockSyms_outOfRange (c : Store) (a : Syms) (s : State) (run : Answer)
    (h : a.length = c.m) (hr : ∃ x ∈ a, 2 ^ c.n ≤ x) :
    whenBlockSyms c a s run = answerErr .rangeError s := by
  obtain ⟨x, hx, hxr⟩ := hr
  have : ¬ allBelow (2 ^ c.n) a = true := fun hb =>
    absurd ((allBelow_iff _ _).mp hb x hx) (by omega)
  simp [whenBlockSyms, h, this]

/-! ## How a command ends -/

theorem complete_completed (d : Bool) (q : Result) (s : State) :
    Completed s (complete d (some q) s) q d :=
  ⟨rfl, rfl, rfl, rfl, rfl, rfl, rfl⟩

theorem complete_sameDatapath (d : Bool) (q : Option Result) (s : State) :
    SameDatapath s (complete d q s) :=
  ⟨rfl, rfl, rfl, rfl, rfl, rfl⟩

theorem raiseErr_reported (e : ErrClass) (s : State) : Reported s (raiseErr e s) e :=
  ⟨rfl, rfl, rfl, rfl, rfl, rfl, rfl, rfl⟩

theorem raiseFatal_reported (s : State) : Reported s (raiseFatal s) .configurationError :=
  ⟨rfl, rfl, rfl, rfl, rfl, rfl, rfl, rfl⟩

/-- A command whose answer is an error at its own state raises it and changes nothing else. -/
theorem raises_of_answerErr (i : Instr) (s : State) (e : ErrClass)
    (h : exec i s = answerErr e s) : Raises i s e :=
  ⟨_, h, raiseErr_reported e s, rfl, rfl, rfl, rfl, rfl⟩

/-- Every text answer is a next state: the text, the empty text with `DEGEN`, or LengthMismatch. -/
theorem answerText_cases (d : DecodedText) (s : State) :
    (∃ t, d = .text t ∧ answerText d s = .next (complete false (some (.text t)) s)) ∨
    (d = .noMarker ∧ answerText d s = .next (complete true (some (.text [])) s)) ∨
    (d = .misaligned ∧ answerText d s = .next (raiseErr .lengthMismatch s)) := by
  cases d with
  | text t => exact .inl ⟨t, rfl, rfl⟩
  | noMarker => exact .inr (.inl ⟨rfl, rfl⟩)
  | misaligned => exact .inr (.inr ⟨rfl, rfl⟩)

end Sys2Proof.Machine
end

