-- ==== Sys2Proof/Laws/Exec.lean ====
section
/-!
SUPPORT. What a command can do, said once (`exec_cases`): the one inversion lemma of `exec`, from which
facts about every command follow without unfolding any meaning.
-/

namespace Sys2Proof.Machine

/-! ## Frames that need no valid store -/

/-- `t` is `s` with other datapath registers. -/
def DatapathOnly (s t : State) : Prop :=
  t = { s with blk := t.blk, rnd := t.rnd, phase := t.phase, iv := t.iv, cnt := t.cnt, idx := t.idx }

theorem DatapathOnly.refl (s : State) : DatapathOnly s s := rfl

theorem DatapathOnly.trans {s t u : State} (h1 : DatapathOnly s t) (h2 : DatapathOnly t u) :
    DatapathOnly s u := by
  unfold DatapathOnly at *
  rw [h2, h1]

theorem microStep_datapathOnly (c : Store) (s : State) : DatapathOnly s (microStep c s) := by
  unfold microStep
  cases s.phase <;> dsimp only <;> (try split) <;> rfl

theorem microSteps_datapathOnly (c : Store) (k : Nat) (s : State) :
    DatapathOnly s (microSteps c k s) := by
  induction k generalizing s with
  | zero => rfl
  | succ k ih => exact (microStep_datapathOnly c s).trans (ih _)

theorem runEncrypt_datapathOnly (c : Store) (a : Bits) (s : State) :
    DatapathOnly s (runEncrypt c a s) :=
  DatapathOnly.trans (t := stepWhiten c a s) rfl (microSteps_datapathOnly c _ _)

theorem runDecrypt_datapathOnly (c : Store) (a : Bits) (s : State) :
    DatapathOnly s (runDecrypt c a s) :=
  DatapathOnly.trans (t := stepUnFinal c a s) rfl (microSteps_datapathOnly c _ _)

theorem ctrLoop_datapathOnly (c : Store) (stream : Blocks) (k i : Nat) (out : Blocks) (s : State) :
    DatapathOnly s (ctrLoop c stream k i out s).2 := by
  induction k generalizing i out s with
  | zero => rfl
  | succ k ih =>
    rw [ctrLoop]
    exact DatapathOnly.trans
      (t := { s with idx := i, cnt := counter c.width s.iv i }) rfl
      ((runEncrypt_datapathOnly c _ _).trans (ih _ _ _))

theorem ctrRun_datapathOnly (c : Store) (stream out : Blocks) (s : State) :
    DatapathOnly s (ctrRun c stream out s).2 := by
  rw [ctrRun]
  exact DatapathOnly.trans (t := { s with iv := memRead stream 0 }) rfl
    ((ctrLoop_datapathOnly c _ _ _ _ _).trans rfl)

/-! ## Datapath runs -/

/-- The engine is at rest between two commands: idle, with registers that fit the store. -/
structure AtRest (c : Store) (s : State) : Prop where
  idle : s.phase = .idle
  idx_zero : s.idx = 0
  blk_fits : FitsBlock c.width s.blk
  iv_fits : FitsBlock c.width s.iv
  cnt_fits : FitsBlock c.width s.cnt
  rnd_le : s.rnd ≤ c.r

/-- What the datapath stage of a command does: it writes datapath registers only, and with a valid
store it comes to rest again. -/
structure DatapathRun (c : Store) (s t : State) : Prop where
  only : DatapathOnly s t
  rest : c.Valid → AtRest c s → AtRest c t

theorem DatapathRun.refl (c : Store) (s : State) : DatapathRun c s s :=
  ⟨.refl s, fun _ h => h⟩

theorem runEncrypt_datapathRun (c : Store) (a : Bits) (s : State) (ha : a.length = c.width) :
    DatapathRun c s (runEncrypt c a s) where
  only := runEncrypt_datapathOnly c a s
  rest hv h := by
    rw [runEncrypt_eq c a s hv.r_pos]
    exact ⟨rfl, h.idx_zero, .inr (encBlock_length a hv ha), h.iv_fits, h.cnt_fits, Nat.le_refl _⟩

theorem runDecrypt_datapathRun (c : Store) (a : Bits) (s : State) (ha : a.length = c.width) :
    DatapathRun c s (runDecrypt c a s) where
  only := runDecrypt_datapathOnly c a s
  rest hv h := by
    rw [runDecrypt_eq c a s hv.r_pos]
    exact ⟨rfl, h.idx_zero, .inr (decBlock_length a hv ha), h.iv_fits, h.cnt_fits, Nat.zero_le _⟩

theorem ctrRun_datapathRun (c : Store) (stream out : Blocks) (s : State)
    (hv : (memRead stream 0).length = c.width) :
    DatapathRun c s (ctrRun c stream out s).2 where
  only := ctrRun_datapathOnly c stream out s
  rest hc h := by
    rw [ctrRun_eq c stream out s hc.r_pos]
    by_cases h0 : stream.length - 1 = 0
    · simp only [h0, if_true]
      exact ⟨h.idle, rfl, h.blk_fits, .inr hv, h.cnt_fits, h.rnd_le⟩
    · simp only [h0, if_false]
      exact ⟨rfl, rfl, .inr (encBlock_counter_length _ _ hc), .inr hv, .inr (counter_length _ _ _),
        Nat.le_refl _⟩

/-! ## The inversion of `exec` -/

/-- Everything `exec i s = .next t` can mean. -/
inductive ExecCase (i : Instr) (s t : State) : Prop where
  /-- `STAT`: only the response changes. -/
  | stat (hi : i = .stat)
      (ht : t = { s with response := some ⟨none, s.degen, some (.status (statusWord s))⟩ })
  /-- An error raised before anything was written. -/
  | raised (e : ErrClass) (hi : i ≠ .stat) (ht : t = raiseErr e s)
      (he : (∃ n m r sbox perm key, i = .cfg n m r sbox perm key) → e = .illegalCommand)
  /-- The late error of `MDEC`. -/
  | late (a : Bits) (c : Store) (u : State) (hi : i = .mdec a) (hs : s.engine = .ready c)
      (hu : DatapathRun c s u) (ht : t = raiseErr .lengthMismatch u)
  /-- A refused construction. -/
  | fatal (n m r : Nat) (sbox perm : Syms) (key : Bits) (hi : i = .cfg n m r sbox perm key)
      (hs : s.engine = .unconfigured) (ht : t = raiseFatal s)
  /-- A construction. -/
  | built (n m r : Nat) (sbox perm : Syms) (key : Bits) (hi : i = .cfg n m r sbox perm key)
      (hs : s.engine = .unconfigured) (hv : cfgValid n m r sbox perm key = true)
      (ht : t = complete false none { s with engine := .ready (storeOf n m r sbox perm key) })
  /-- A result. -/
  | done (c : Store) (d : Bool) (q : Result) (u : State)
      (hi : i ≠ .stat ∧ ∀ n m r sbox perm key, i ≠ .cfg n m r sbox perm key)
      (hs : s.engine = .ready c) (hu : DatapathRun c s u) (ht : t = complete d (some q) u)
      (hd : d = true → (∃ a, i = .b2t a) ∨ ∃ a, i = .mdec a)

/-- An answer of the forms the meanings use: an error at once, or a result after a datapath stage. -/
def Plain (c : Store) (s : State) (x : Answer) : Prop :=
  (∃ e, x = answerErr e s) ∨ ∃ q u, DatapathRun c s u ∧ x = answerOk q u

theorem plain_err (c : Store) (s : State) (e : ErrClass) : Plain c s (answerErr e s) :=
  .inl ⟨e, rfl⟩

theorem plain_ok (c : Store) (s : State) (q : Result) : Plain c s (answerOk q s) :=
  .inr ⟨q, s, .refl c s, rfl⟩

theorem plain_width (c : Store) (k : Nat) (s : State) (x : Answer) (h : Plain c s x) :
    Plain c s (whenWidth k s x) := by
  unfold whenWidth
  split
  · exact plain_err c s _
  · exact h

theorem plain_block (c : Store) (a : Bits) (s : State) (x : Answer)
    (h : a.length = c.width → Plain c s x) : Plain c s (whenBlock c a s x) := by
  unfold whenBlock
  split
  · exact h ‹_›
  · exact plain_err c s _

theorem plain_blockSyms (c : Store) (a : Syms) (s : State) (x : Answer) (h : Plain c s x) :
    Plain c s (whenBlockSyms c a s x) := by
  unfold whenBlockSyms
  split
  · exact plain_err c s _
  · split
    · exact h
    · exact plain_err c s _

theorem plain_ite (c : Store) (s : State) (p : Prop) [Decidable p] (x y : Answer)
    (hx : p → Plain c s x) (hy : ¬p → Plain c s y) : Plain c s (if p then x else y) := by
  split
  · exact hx ‹_›
  · exact hy ‹_›

theorem memRead_zero_width (stream : Blocks) (w : Nat) (hne : stream.length ≠ 0)
    (h : ∀ b ∈ stream, b.length = w) : (memRead stream 0).length = w :=
  memRead_width stream w 0 h (by omega)

/-- A command that runs in `Ready` and answers in one of the plain forms. -/
theorem execCase_of_plain (i : Instr) (s t : State) (run : Store → Answer)
    (hi : i ≠ .stat ∧ ∀ n m r sbox perm key, i ≠ .cfg n m r sbox perm key)
    (hrun : ∀ c, Plain c s (run c)) (h : whenReady s run = .next t) : ExecCase i s t := by
  have hcfg : (∃ n m r sbox perm key, i = .cfg n m r sbox perm key) →
      ∀ e : ErrClass, e = .illegalCommand := by
    rintro ⟨n, m, r, sbox, perm, key, hc⟩
    exact absurd hc (hi.2 n m r sbox perm key)
  rcases ready_or_notReady s with ⟨c, hs⟩ | hs
  · rw [whenReady_ready s c run hs] at h
    rcases hrun c with ⟨e, he⟩ | ⟨q, u, hu, he⟩
    · rw [he] at h
      injection h with h
      exact .raised e hi.1 h.symm (fun hc => hcfg hc e)
    · rw [he] at h
      injection h with h
      exact .done c false q u hi hs hu h.symm (by simp)
  · rw [whenReady_notReady s run hs] at h
    injection h with h
    exact .raised _ hi.1 h.symm (fun _ => rfl)

/-- A text answer after a datapath stage. -/
theorem execCase_of_text (i : Instr) (s t u : State) (c : Store) (d : DecodedText)
    (hi : (∃ a, i = .b2t a ∧ u = s) ∨ ∃ a, i = .mdec a) (hs : s.engine = .ready c)
    (hu : DatapathRun c s u) (h : answerText d u = .next t) : ExecCase i s t := by
  have hne : i ≠ .stat ∧ ∀ n m r sbox perm key, i ≠ .cfg n m r sbox perm key := by
    rcases hi with ⟨a, rfl, -⟩ | ⟨a, rfl⟩ <;> exact ⟨by simp, by simp⟩
  have hd : (∃ a, i = .b2t a) ∨ ∃ a, i = .mdec a := by
    rcases hi with ⟨a, hi, -⟩ | hi
    · exact .inl ⟨a, hi⟩
    · exact .inr hi
  rcases answerText_cases d u with ⟨y, -, hx⟩ | ⟨-, hx⟩ | ⟨-, hx⟩
  · rw [hx] at h; injection h with h
    exact .done c false _ u hne hs hu h.symm (fun _ => hd)
  · rw [hx] at h; injection h with h
    exact .done c true _ u hne hs hu h.symm (fun _ => hd)
  · rw [hx] at h; injection h with h
    rcases hi with ⟨a, -, rfl⟩ | ⟨a, ha⟩
    · exact .raised _ hne.1 h.symm (fun ⟨n, m, r, sb, p, k, hc⟩ => absurd hc (hne.2 n m r sb p k))
    · exact .late a c u ha hs hu h.symm

/-- Everything a command can do. -/
theorem exec_cases (i : Instr) (s t : State) (h : exec i s = .next t) : ExecCase i s t := by
  cases i with
  | cfg n m r sbox perm key =>
    change execCfg n m r sbox perm key s = _ at h
    unfold execCfg at h
    split at h
    · rename_i hs
      split at h
      · rename_i hv
        injection h with h
        exact .built n m r sbox perm key rfl hs hv h.symm
      · injection h with h
        exact .fatal n m r sbox perm key rfl hs h.symm
    · injection h with h
      exact .raised _ (by simp) h.symm (fun _ => rfl)
  | stat =>
    injection h with h
    exact .stat rfl h.symm
  | b2s a k => exact execCase_of_plain _ s t _ (by simp) (fun c => plain_width c k s _ (plain_ok c s _)) h
  | s2b a k =>
    exact execCase_of_plain _ s t _ (by simp)
      (fun c => plain_width c k s _ (plain_ite c s _ _ _ (fun _ => plain_ok c s _) fun _ => plain_err c s _)) h
  | t2b a =>
    exact execCase_of_plain _ s t _ (by simp)
      (fun c => plain_ite c s _ _ _ (fun _ => plain_ok c s _) fun _ => plain_err c s _) h
  | b2t a =>
    rcases ready_or_notReady s with ⟨c, hs⟩ | hs
    · have h' := (whenReady_ready s c _ hs).symm.trans h
      exact execCase_of_text _ s t s c _ (.inl ⟨a, rfl, rfl⟩) hs (.refl c s) h'
    · have h' := (whenReady_notReady s _ hs).symm.trans h
      injection h' with h'
      exact .raised _ (by simp) h'.symm (by simp)
  | pad a k => exact execCase_of_plain _ s t _ (by simp) (fun c => plain_width c k s _ (plain_ok c s _)) h
  | split a k => exact execCase_of_plain _ s t _ (by simp) (fun c => plain_width c k s _ (plain_ok c s _)) h
  | join a => exact execCase_of_plain _ s t _ (by simp) (fun c => plain_ok c s _) h
  | xor a b =>
    exact execCase_of_plain _ s t _ (by simp)
      (fun c => plain_ite c s _ _ _ (fun _ => plain_ok c s _) fun _ => plain_err c s _) h
  | sub a => exact execCase_of_plain _ s t _ (by simp) (fun c => plain_blockSyms c a s _ (plain_ok c s _)) h
  | isub a => exact execCase_of_plain _ s t _ (by simp) (fun c => plain_blockSyms c a s _ (plain_ok c s _)) h
  | prm a => exact execCase_of_plain _ s t _ (by simp) (fun c => plain_block c a s _ fun _ => plain_ok c s _) h
  | iprm a => exact execCase_of_plain _ s t _ (by simp) (fun c => plain_block c a s _ fun _ => plain_ok c s _) h
  | kgen a =>
    exact execCase_of_plain _ s t _ (by simp)
      (fun c => plain_ite c s _ _ _ (fun _ => plain_err c s _) fun _ => plain_ok c s _) h
  | enc a =>
    exact execCase_of_plain _ s t _ (by simp)
      (fun c => plain_block c a s _ fun ha => .inr ⟨_, _, runEncrypt_datapathRun c a s ha, rfl⟩) h
  | dec a =>
    exact execCase_of_plain _ s t _ (by simp)
      (fun c => plain_block c a s _ fun ha => .inr ⟨_, _, runDecrypt_datapathRun c a s ha, rfl⟩) h
  | ctrx a =>
    exact execCase_of_plain _ s t _ (by simp)
      (fun c => plain_ite c s _ _ _ (fun _ => plain_err c s _) fun hne =>
        plain_ite c s _ _ _ (fun hw => .inr ⟨_, _, ctrRun_datapathRun c a [] s
          (memRead_zero_width a _ hne ((allOfWidth_iff _ _).mp hw)), rfl⟩) fun _ => plain_err c s _) h
  | ctre b a =>
    exact execCase_of_plain _ s t _ (by simp)
      (fun c => plain_ite c s _ _ _ (fun _ => plain_err c s _) fun hb =>
        plain_ite c s _ _ _ (fun _ => .inr ⟨_, _, ctrRun_datapathRun c (b :: a) [b] s
          (by simpa [memRead] using hb), rfl⟩) fun _ => plain_err c s _) h
  | menc a b =>
    exact execCase_of_plain _ s t _ (by simp)
      (fun c => plain_ite c s _ _ _ (fun _ => plain_err c s _) fun hb =>
        plain_ite c s _ _ _ (fun _ => .inr ⟨_, _, ctrRun_datapathRun c (b :: _) [b] s
          (by simpa [memRead] using hb), rfl⟩) fun _ => plain_err c s _) h
  | mdec a =>
    rcases ready_or_notReady s with ⟨c, hs⟩ | hs
    · have h' := (whenReady_ready s c _ hs).symm.trans h
      dsimp only at h'
      by_cases h0 : (splitIntoBlocks a c.width).length = 0
      · rw [if_pos h0] at h'
        injection h' with h'
        exact .raised _ (by simp) h'.symm (by simp)
      · rw [if_neg h0] at h'
        have hw : 0 < c.width := by
          by_contra hw
          have : c.width = 0 := by omega
          rw [splitIntoBlocks_length, chunkCount, this, Nat.div_zero] at h0
          exact h0 rfl
        exact execCase_of_text _ s t _ c _ (.inr ⟨a, rfl⟩) hs
          (ctrRun_datapathRun c _ [] s
            (memRead_zero_width _ _ h0 (splitIntoBlocks_width a _ hw))) h'
    · have h' := (whenReady_notReady s _ hs).symm.trans h
      injection h' with h'
      exact .raised _ (by simp) h'.symm (by simp)

/-! ## The sticky records -/

/-- A recorded class stays recorded. -/
theorem seen_kept (x m k : BitVec 4) (h : x &&& k = k) : (x ||| m) &&& k = k := by
  revert x m k; decide

theorem seen_recorded (x m : BitVec 4) : (x ||| m) &&& m = m := by
  revert x m; decide

end Sys2Proof.Machine
end

