-- ==== Sys2Proof/Laws/PerInstr.lean ====
section
/-!
SUPPORT. The per-instruction family `RoundTrip`: every command, whatever its operands, is decoded back
from its encoding, and its opcode is one of the 21 of R90.
-/

namespace Sys2Proof.Laws.RoundTrip

/-- The command survives encoding and decoding, and its opcode is a defined one (R89, R90). -/
def Statement (i : Instr) : Prop :=
  decode (encode i) = .instr i ∧ (encode i).op ∈ definedOpcodes

theorem cfg (n m r : Nat) (sbox perm : Syms) (key : Bits) : Statement (.cfg n m r sbox perm key) :=
  ⟨rfl, of_decide_eq_true rfl⟩

theorem stat : Statement (.stat) :=
  ⟨rfl, of_decide_eq_true rfl⟩

theorem b2s (a : Bits) (k : Nat) : Statement (.b2s a k) :=
  ⟨rfl, of_decide_eq_true rfl⟩

theorem s2b (a : Syms) (k : Nat) : Statement (.s2b a k) :=
  ⟨rfl, of_decide_eq_true rfl⟩

theorem t2b (a : Text) : Statement (.t2b a) :=
  ⟨rfl, of_decide_eq_true rfl⟩

theorem b2t (a : Bits) : Statement (.b2t a) :=
  ⟨rfl, of_decide_eq_true rfl⟩

theorem pad (a : Bits) (k : Nat) : Statement (.pad a k) :=
  ⟨rfl, of_decide_eq_true rfl⟩

theorem split (a : Bits) (k : Nat) : Statement (.split a k) :=
  ⟨rfl, of_decide_eq_true rfl⟩

theorem join (a : Blocks) : Statement (.join a) :=
  ⟨rfl, of_decide_eq_true rfl⟩

theorem xor (a b : Bits) : Statement (.xor a b) :=
  ⟨rfl, of_decide_eq_true rfl⟩

theorem sub (a : Syms) : Statement (.sub a) :=
  ⟨rfl, of_decide_eq_true rfl⟩

theorem isub (a : Syms) : Statement (.isub a) :=
  ⟨rfl, of_decide_eq_true rfl⟩

theorem prm (a : Bits) : Statement (.prm a) :=
  ⟨rfl, of_decide_eq_true rfl⟩

theorem iprm (a : Bits) : Statement (.iprm a) :=
  ⟨rfl, of_decide_eq_true rfl⟩

theorem kgen (a : Bits) : Statement (.kgen a) :=
  ⟨rfl, of_decide_eq_true rfl⟩

theorem enc (a : Bits) : Statement (.enc a) :=
  ⟨rfl, of_decide_eq_true rfl⟩

theorem dec (a : Bits) : Statement (.dec a) :=
  ⟨rfl, of_decide_eq_true rfl⟩

theorem ctrx (a : Blocks) : Statement (.ctrx a) :=
  ⟨rfl, of_decide_eq_true rfl⟩

theorem ctre (b : Bits) (a : Blocks) : Statement (.ctre b a) :=
  ⟨rfl, of_decide_eq_true rfl⟩

theorem menc (a : Text) (b : Bits) : Statement (.menc a b) :=
  ⟨rfl, of_decide_eq_true rfl⟩

theorem mdec (a : Bits) : Statement (.mdec a) :=
  ⟨rfl, of_decide_eq_true rfl⟩

end Sys2Proof.Laws.RoundTrip
end

