-- ==== Sys2Proof/Laws/Properties.lean ====
section
/-!
SUPPORT. The properties the spec derives from its rules (R66, R114, R123, R143, R153, R183, R197, R205),
as named in `Safety.lean`, of every width or of every valid store.
-/

namespace Sys2Proof.Machine

/-- R114. -/
theorem symbolsInvert (k : Nat) (hk : 0 < k) : SymbolsInvert k where
  left b := (symbolsToBits_bitsToSymbols b k hk).trans (zeroFill_eq b k hk)
  right := ⟨fun b ⟨j, hj⟩ => (symbolsToBits_bitsToSymbols b k hk).trans
      (zeroFill_multiple b j k hk (hj.trans (Nat.mul_comm k j))),
    fun y hy => bitsToSymbols_symbolsToBits y k hk hy⟩

/-- R123. -/
theorem paddingInverts (w : Nat) : PaddingInverts w := fun y hy => bitsToText_marked y _ hy

variable {c : Store}

/-- R143. -/
theorem Store.Valid.substitutionInverts (h : c.Valid) : c.SubstitutionInverts where
  left x hx := ⟨h.invsbox_inverts x hx,
    (tableAt_right_of_left _ _ _ _ h.sbox_bijection h.invsbox_inverts hx).2⟩
  right a _ ha := ⟨invSubstSyms_substSyms a h ha, substSyms_invSubstSyms a h ha⟩

/-- R153. -/
theorem Store.Valid.permutationInverts (h : c.Valid) : c.PermutationInverts where
  left i hi := ⟨h.invperm_inverts i hi,
    (tableAt_right_of_left _ _ _ _ h.perm_bijection h.invperm_inverts hi).2⟩
  right a ha := ⟨invPermute_permute a h ha, permute_invPermute a h ha⟩

/-- R183. -/
theorem Store.Valid.roundTrips (h : c.Valid) : c.RoundTrips := fun x hx =>
  ⟨decBlock_encBlock x h hx, encBlock_decBlock x h hx⟩

theorem ctrTransform_length (v : Bits) (p : Blocks) : (ctrTransform c v p).length = p.length := by
  simp [ctrTransform]

/-- R197. -/
theorem Store.Valid.ctrInverts (h : c.Valid) : c.CtrInverts := by
  intro v p hw
  simp only [ctrTransform, List.mapIdx_mapIdx]
  apply List.ext_getElem?
  intro j
  by_cases hj : j < p.length
  · simpa [hj] using xorBits_keystream_cancel p[j] v (j + 1) h (hw _ (by simp))
  · simp [hj]

/-- R66; it needs nothing of the store. -/
theorem keystreamIndependent (c : Store) : c.KeystreamIndependent := by
  intro v p i x d hx
  have hi : i < p.length := (List.getElem?_eq_some_iff.mp hx).1
  refine ⟨xorBits x (encBlock c (counter c.width v (i + 1))), by simp [ctrTransform, hx], ?_⟩
  apply List.ext_getElem?
  intro j
  by_cases hj : i = j
  · subst hj
    simp only [ctrTransform, List.getElem?_mapIdx, List.getElem?_set_self hi, Option.map_some,
      List.getElem?_set_self (show i < (p.mapIdx _).length by simpa using hi)]
    rw [xorBits_assoc, xorBits_assoc, xorBits_comm d]
  · simp [ctrTransform, hj]

/-- Every block of a CTR output has the block width. -/
theorem ctrTransform_width (v : Bits) (p : Blocks) (h : c.Valid) (hw : ∀ b ∈ p, b.length = c.width) :
    ∀ b ∈ ctrTransform c v p, b.length = c.width := by
  intro b hb
  obtain ⟨i, hi, rfl⟩ := List.mem_mapIdx.mp hb
  rw [xorBits_length, encBlock_counter_length _ _ h, hw _ (List.getElem_mem hi), Nat.min_self]

/-- `SPLIT` undoes `JOIN` on blocks of one positive width. -/
theorem splitIntoBlocks_joinBlocks (p : Blocks) (w : Nat) (hk : 0 < w)
    (hw : ∀ b ∈ p, b.length = w) : splitIntoBlocks (joinBlocks p) w = p := by
  have hj : joinBlocks p = p.flatMap id := by simp [joinBlocks, List.flatMap_id]
  have hl : (joinBlocks p).length = p.length * w := by rw [hj]; exact flatMap_length id w p hw
  apply List.ext_getElem?
  intro t
  simp only [splitIntoBlocks, hl, chunkCount_mul _ _ hk, zeroFill_multiple _ _ _ hk hl]
  by_cases ht : t < p.length
  · have hp : p[t]? = some p[t] := List.getElem?_eq_getElem ht
    rw [List.getElem?_map, List.getElem?_range ht, Option.map_some, hp, hj,
      subBits_flatMap id w p hw t _ hp]
    rfl
  · simp [ht]

/-- R205. -/
theorem Store.Valid.messagesInvert (h : c.Valid) : c.MessagesInvert := by
  intro y v hv hy
  have hp := splitIntoBlocks_width (padForBlocks (textToBits y) c.width) c.width h.width_pos
  obtain ⟨j, hj, -⟩ := padForBlocks_length (textToBits y) c.width h.width_pos
  have hw : ∀ b ∈ v :: splitIntoBlocks (padForBlocks (textToBits y) c.width) c.width,
      b.length = c.width := List.forall_mem_cons.mpr ⟨hv, hp⟩
  rw [decodeMessage, encodeMessage, splitIntoBlocks_joinBlocks _ _ h.width_pos
    (List.forall_mem_cons.mpr ⟨hv, ctrTransform_width v _ h hp⟩)]
  simp only [memRead, List.getD_cons_zero, List.tail_cons]
  rw [h.ctrInverts v _ hw, joinBlocks_split _ _ h.width_pos, zeroFill_multiple _ j _ h.width_pos hj]
  exact paddingInverts c.width y hy

end Sys2Proof.Machine
end

