-- ==== Sys2Proof/Tests/Slice0.lean ====
section
/-!
SUPPORT. Tests of the model: decoding of opcode bytes written out bit by bit from R89 and R90, the
well-formedness checks, one-step examples whose results stand in the spec (`95_test_vectors.md` and the
rules' own examples), and for every obligation with hypotheses a witness that meets them.
-/

namespace Sys2Proof.Tests

open Sys2Proof.Machine

/-! ## Small cores -/

/-- A core as `CFG` with these operands leaves it after reset. -/
def coreOf (n m r : Nat) (sbox perm : Syms) (key : Bits) : State :=
  { State.reset with engine := .ready (storeOf n m r sbox perm key) }

/-- The spec's `ref/K1` and `ref/K2` (`95_test_vectors.md`). -/
def refCore (key : Nat) : State := coreOf 4 4 4 Config.refSBox Config.refPerm (bitsOf 32 key)

def k1 : State := refCore 0x11288C00
def k2 : State := refCore 0x3A94D63F

/-- A 16-bit block from its number. -/
def hex (v : Nat) : Bits := bitsOf 16 v

/-- The rotation core of `95_test_vectors.md` (`T-PRM-6`): a permutation that is no involution. -/
def rot : State :=
  coreOf 4 4 4 Config.refSBox [1, 2, 3, 4, 5, 6, 7, 8, 9, 10, 11, 12, 13, 14, 15, 0]
    (bitsOf 32 0x3A94D63F)

/-- A small core with blocks of 4 bits. -/
def toy : Store := storeOf 2 2 2 [1, 0, 3, 2] [1, 2, 3, 0] (bitsOf 8 0x1B)
def toyCore : State := { State.reset with engine := .ready toy }

/-- The response a step leaves. -/
def responseOf (x : Answer) : Option Response :=
  match x with
  | .next t => t.response
  | _ => none

/-- The state a command leaves, for a second command. -/
def after (i : Instr) (s : State) : State :=
  match exec i s with
  | .next t => t
  | _ => s

def ok (q : Result) : Option Response := some ⟨none, false, some q⟩
def bad (e : ErrClass) : Option Response := some ⟨some e, false, none⟩

/-! ## Decoding, every row of R89's table by its eight bits (`30_encoding.md` R89, R90) -/

theorem test_decode_cfg :
    decode ⟨0b00000001, { n := 1, m := 2, r := 3, sbox := [1, 0], perm := [0, 1], key := [true] }⟩ = .instr (.cfg 1 2 3 [1, 0] [0, 1] [true]) := by
  decide

theorem test_decode_stat :
    decode ⟨0b00000010, {}⟩ = .instr (.stat) := by decide

theorem test_decode_b2s :
    decode ⟨0b00010000, { aBits := [true], k := 4 }⟩ = .instr (.b2s [true] 4) := by decide

theorem test_decode_s2b :
    decode ⟨0b00010001, { aSyms := [11, 2], k := 4 }⟩ = .instr (.s2b [11, 2] 4) := by decide

theorem test_decode_t2b :
    decode ⟨0b00010010, { aText := [72] }⟩ = .instr (.t2b [72]) := by decide

theorem test_decode_b2t :
    decode ⟨0b00010011, { aBits := [true] }⟩ = .instr (.b2t [true]) := by decide

theorem test_decode_pad :
    decode ⟨0b00010100, { aBits := [true], k := 7 }⟩ = .instr (.pad [true] 7) := by decide

theorem test_decode_split :
    decode ⟨0b00010101, { aBits := [true], k := 2 }⟩ = .instr (.split [true] 2) := by decide

theorem test_decode_join :
    decode ⟨0b00010110, { aBlocks := [[true], []] }⟩ = .instr (.join [[true], []]) := by decide

theorem test_decode_xor :
    decode ⟨0b00010111, { aBits := [true], b := [false] }⟩ = .instr (.xor [true] [false]) := by
  decide

theorem test_decode_sub :
    decode ⟨0b00100000, { aSyms := [3] }⟩ = .instr (.sub [3]) := by decide

theorem test_decode_isub :
    decode ⟨0b00100001, { aSyms := [3] }⟩ = .instr (.isub [3]) := by decide

theorem test_decode_prm :
    decode ⟨0b00100010, { aBits := [true] }⟩ = .instr (.prm [true]) := by decide

theorem test_decode_iprm :
    decode ⟨0b00100011, { aBits := [true] }⟩ = .instr (.iprm [true]) := by decide

theorem test_decode_kgen :
    decode ⟨0b00100100, { aBits := [true] }⟩ = .instr (.kgen [true]) := by decide

theorem test_decode_enc :
    decode ⟨0b00110000, { aBits := [true] }⟩ = .instr (.enc [true]) := by decide

theorem test_decode_dec :
    decode ⟨0b00110001, { aBits := [true] }⟩ = .instr (.dec [true]) := by decide

theorem test_decode_ctrx :
    decode ⟨0b01000000, { aBlocks := [[true]] }⟩ = .instr (.ctrx [[true]]) := by decide

theorem test_decode_ctre :
    decode ⟨0b01000001, { b := [true], aBlocks := [[false]] }⟩ = .instr (.ctre [true] [[false]]) := by
  decide

theorem test_decode_menc :
    decode ⟨0b01000010, { aText := [72], b := [true] }⟩ = .instr (.menc [72] [true]) := by decide

theorem test_decode_mdec :
    decode ⟨0b01000011, { aBits := [true] }⟩ = .instr (.mdec [true]) := by decide

/-- R91 (a): `00`, `FF` and the neighbours of defined opcodes are undefined. -/
theorem test_decode_undefined :
    decode ⟨0b00000000, {}⟩ = .undefinedOpcode 0x00 ∧
    decode ⟨0b11111111, {}⟩ = .undefinedOpcode 0xFF ∧
    decode ⟨0b00000011, {}⟩ = .undefinedOpcode 0x03 ∧
    decode ⟨0b00011000, {}⟩ = .undefinedOpcode 0x18 ∧
    decode ⟨0b00100101, {}⟩ = .undefinedOpcode 0x25 ∧
    decode ⟨0b01000100, {}⟩ = .undefinedOpcode 0x44 := by decide

/-- R90: 21 opcodes, no two equal. -/
theorem test_opcodes_distinct : definedOpcodes.length = 21 ∧ definedOpcodes.Nodup := by decide

/-- A row of the table, placed and run as the first command after reset: `PAD` with zero width on a core
that is not configured raises IllegalCommand. -/
theorem test_table_word_runs :
    decodeTableWord 8 0x14 = some (.pad [] 0) ∧
    step (State.reset.withFetchWord 8 0x14) = exec (.pad [] 0) State.reset ∧
    responseOf (step (State.reset.withFetchWord 8 0x14)) = bad .illegalCommand :=
  ⟨by decide, rfl, by decide⟩

/-! ## Well-formedness: each check refuses an ill-formed command -/

theorem test_wellFormed_cfg :
    (cfgRef (bitsOf 32 0x11288C00)).wellFormed = true ∧
    (Instr.cfg 1 1 0 [0, 1] [0] [true, true]).wellFormed = false ∧      -- R211 item 1
    (Instr.cfg 1 1 1 [0, 0] [0] [true, true]).wellFormed = false ∧      -- item 2: repeated entry
    (Instr.cfg 1 1 1 [0, 2] [0] [true, true]).wellFormed = false ∧      -- item 2: out of range
    (Instr.cfg 1 1 1 [0, 1] [0, 1] [true, true]).wellFormed = false ∧   -- item 3: length
    (Instr.cfg 1 1 1 [0, 1] [0] [true]).wellFormed = false := by        -- item 4: key too short
  decide

theorem test_wellFormed_width :
    (Instr.b2s [] 0).wellFormed = false ∧ (Instr.s2b [] 0).wellFormed = false ∧
    (Instr.pad [] 0).wellFormed = false ∧ (Instr.split [] 0).wellFormed = false ∧
    (Instr.b2s [] 1).wellFormed = true := by decide

theorem test_wellFormed_range :
    (Instr.s2b [16] 4).wellFormed = false ∧ (Instr.s2b [15] 4).wellFormed = true ∧
    (Instr.t2b [72, 256]).wellFormed = false ∧ (Instr.t2b [255]).wellFormed = true ∧
    (Instr.menc [256] []).wellFormed = false := by decide

theorem test_wellFormed_length :
    (Instr.b2t [false, true]).wellFormed = false ∧ (Instr.b2t [true]).wellFormed = true ∧
    (Instr.xor [true] []).wellFormed = false ∧ (Instr.ctrx []).wellFormed = false ∧
    (Instr.mdec []).wellFormed = false := by decide

/-! ## One step, results from the spec -/

/-- R210's example: the sizes and the round keys of `ref/K1`. -/
theorem test_cfg_round_keys :
    (after (cfgRef (bitsOf 32 0x11288C00)) State.reset).engine = k1.engine ∧
    ∃ c, k1.engine = .ready c ∧
      c.rk = [hex 0x1128, hex 0x1288, hex 0x288C, hex 0x88C0, hex 0x8C00] ∧
      c.invsbox[1]? = some 3 ∧ c.key = [1, 1, 2, 8, 8, 12, 0, 0] := by
  exact ⟨by decide +kernel, _, rfl, by decide +kernel⟩

/-- R211's example, a repeated S-box entry: ConfigurationError, and the core is `Failed` (R213). -/
theorem test_cfg_refused :
    (after (.cfg 1 1 1 [0, 0] [0] [true, true]) State.reset).engine = .failed ∧
    responseOf (exec (.cfg 1 1 1 [0, 0] [0] [true, true]) State.reset) = bad .configurationError := by
  decide +kernel

/-- R215's example: after a `B2T` without a marker in a `Ready` core. -/
theorem test_stat_degen :
    responseOf (exec .stat (after (.b2t []) toyCore)) =
      some ⟨none, true, some (.status 0b0000010000100001)⟩ := by decide +kernel

/-- The answers of `STAT` in T-STAT-1, T-STAT-3, T-ILL-1, P4 and P6: the codes of LIFE, ERR and SEEN. -/
theorem test_stat_codes :
    let failed := after (.cfg 1 1 1 [0, 0] [0] [true, true]) State.reset
    let bad1 := after (.xor (bitsOf 4 12) (bitsOf 3 5)) toyCore
    let bad2 := after (.sub [0, 16]) bad1
    let bad3 := after (.cfg 0 0 0 [] [] []) bad2
    responseOf (exec .stat State.reset) = ok (.status 0) ∧
    responseOf (exec .stat failed) = ok (.status 0b0000000001000110) ∧
    responseOf (exec .stat (after (.enc (hex 0)) State.reset)) = ok (.status 0b0000001000010000) ∧
    responseOf (exec .stat (after (.enc (hex 0)) failed)) = ok (.status 0b0000001001010010) ∧
    responseOf (exec .stat bad1) = ok (.status 0b0000000010001001) ∧
    responseOf (exec .stat bad2) = ok (.status 0b0000000110001101) ∧
    responseOf (exec .stat (after (.enc (zeros 4)) bad2)) = ok (.status 0b0000000110000001) ∧
    responseOf (exec .stat bad3) = ok (.status 0b0000001110010001) := by decide +kernel

/-- T-B2S-3: the short last chunk is padded on the right. -/
theorem test_b2s_short_chunk :
    responseOf (exec (.b2s (bitsOf 7 0b1011001) 4) toyCore) = ok (.syms [11, 2]) := by
  decide +kernel

/-- T-B2S-6. -/
theorem test_b2s_zero_width :
    responseOf (exec (.b2s (bitsOf 4 0b1011) 0) toyCore) = bad .illegalCommand := by decide +kernel

/-- T-S2B-2. -/
theorem test_s2b :
    responseOf (exec (.s2b [11, 2] 4) toyCore) = ok (.bits (bitsOf 8 0b10110010)) := by
  decide +kernel

/-- T-S2B-5. -/
theorem test_s2b_range :
    responseOf (exec (.s2b [16] 4) toyCore) = bad .rangeError := by decide +kernel

/-- T-T2B-1: `"Gut"`. -/
theorem test_t2b :
    responseOf (exec (.t2b [71, 117, 116]) toyCore) =
      ok (.bits (bitsOf 24 0b010001110111010101110100)) := by decide +kernel

/-- T-T2B-5. -/
theorem test_t2b_wide :
    responseOf (exec (.t2b [72, 256]) toyCore) = bad .rangeError := by decide +kernel

/-- T-B2T-1: `"H"`. -/
theorem test_b2t :
    responseOf (exec (.b2t (bitsOf 10 0b0100100010)) toyCore) = ok (.text [72]) := by decide +kernel

/-- T-B2T-8: the last marker at position 15. -/
theorem test_b2t_unpadded :
    responseOf (exec (.b2t (bitsOf 32 0x48690000)) toyCore) = bad .lengthMismatch := by
  decide +kernel

/-- T-PAD-3: a whole block is added. -/
theorem test_pad_whole_block :
    responseOf (exec (.pad (zeros 16) 16) toyCore) = ok (.bits (hex 0 ++ hex 0x8000)) := by
  decide +kernel

/-- T-PAD-9. -/
theorem test_pad_odd_width :
    responseOf (exec (.pad (bitsOf 8 0b01000001) 7) toyCore) =
      ok (.bits (bitsOf 14 0b01000001100000)) := by decide +kernel

/-- T-SPL-1. -/
theorem test_split :
    responseOf (exec (.split (bitsOf 5 0b10110) 4) toyCore) =
      ok (.blocks [bitsOf 4 0b1011, bitsOf 4 0]) := by decide +kernel

/-- T-JOIN-3. -/
theorem test_join :
    responseOf (exec (.join [[true], [false, true], []]) toyCore) =
      ok (.bits [true, false, true]) := by decide +kernel

/-- T-XOR-4. -/
theorem test_xor :
    responseOf (exec (.xor (hex 0x0BB8) (hex 0x4CCD)) toyCore) = ok (.bits (hex 0x4775)) := by
  decide +kernel

/-- T-XOR-3. -/
theorem test_xor_lengths :
    responseOf (exec (.xor (bitsOf 4 12) (bitsOf 3 5)) toyCore) = bad .lengthMismatch := by
  decide +kernel

/-- T-SUB-1. -/
theorem test_sub :
    responseOf (exec (.sub [0, 3, 10, 7]) k2) = ok (.syms [14, 1, 6, 8]) := by decide +kernel

/-- T-SUB-5: the length before the range (R227). -/
theorem test_sub_priority :
    responseOf (exec (.sub [99, 1, 2]) k2) = bad .lengthMismatch := by decide +kernel

/-- T-ISUB-2. -/
theorem test_isub :
    responseOf (exec (.isub [4, 13, 3, 7]) k2) = ok (.syms [1, 2, 8, 15]) := by decide +kernel

/-- T-PRM-6: scatter, on a permutation that is no involution. -/
theorem test_prm :
    responseOf (exec (.prm (hex 0x8000)) rot) = ok (.bits (hex 0x4000)) := by decide +kernel

/-- T-IPRM-3. -/
theorem test_iprm :
    responseOf (exec (.iprm (bitsOf 16 0b0001001010001111)) rot) =
      ok (.bits (bitsOf 16 0b0010010100011110)) := by decide +kernel

/-- T-KGEN-4: key bits beyond the schedule are ignored. -/
theorem test_kgen :
    responseOf (exec (.kgen (bitsOf 36 0x11288C00F)) k2) =
      ok (.blocks [hex 0x1128, hex 0x1288, hex 0x288C, hex 0x88C0, hex 0x8C00]) := by decide +kernel

/-- T-KGEN-3: ConfigurationError, and the core stays `Ready`. -/
theorem test_kgen_short :
    responseOf (exec (.kgen (bitsOf 28 0x11288C0)) k2) = bad .configurationError ∧
    (after (.kgen (bitsOf 28 0x11288C0)) k2).engine = k2.engine := by decide +kernel

/-- V1, the source's reference vector. -/
theorem test_enc :
    responseOf (exec (.enc (bitsOf 16 0b0001001010001111)) k1) =
      ok (.bits (bitsOf 16 0b1010111010110100)) := by decide +kernel

/-- T-ENC-7: a gather reading of the permutation would give `1901`. -/
theorem test_enc_scatter :
    responseOf (exec (.enc (hex 0x128F)) rot) = ok (.bits (hex 0x0AEA)) := by decide +kernel

/-- T-DEC-1. -/
theorem test_dec :
    responseOf (exec (.dec (hex 0xAEB4)) k1) = ok (.bits (hex 0x128F)) := by decide +kernel

/-- T-ENC-9, `R = 1`. -/
theorem test_dec_one_round :
    responseOf (exec (.dec (hex 0xF3E0))
      (coreOf 4 4 1 Config.refSBox Config.refPerm (bitsOf 20 0x11288))) = ok (.bits (hex 0x128F)) := by
  decide +kernel

/-- R201's example: the counter wraps. -/
theorem test_ctrx_wrap :
    responseOf (exec (.ctrx [hex 0xFFFE, hex 0, hex 0, hex 0, hex 0]) k2) =
      ok (.blocks [hex 0xAC64, hex 0xCFDF, hex 0x9278, hex 0x987E]) := by decide +kernel

/-- R193's example, and the registers after it. -/
theorem test_ctrx_registers :
    responseOf (exec (.ctrx [hex 0x04D2, hex 0x0BB8]) k2) = ok (.blocks [hex 0x4775]) ∧
    (after (.ctrx [hex 0x04D2, hex 0x0BB8]) k2).iv = hex 0x04D2 ∧
    (after (.ctrx [hex 0x04D2, hex 0x0BB8]) k2).blk = hex 0x4CCD := by decide +kernel

/-- R196's example. -/
theorem test_ctre :
    responseOf (exec (.ctre (hex 0) [hex 0x4869, hex 0x8000]) k2) =
      ok (.blocks [hex 0, hex 0xDA11, hex 0x187E]) := by decide +kernel

/-- R203's example: `"Hi"`. -/
theorem test_menc :
    responseOf (exec (.menc [72, 105] (hex 0)) k2) = ok (.bits (bitsOf 48 0x0000DA11187E)) := by
  decide +kernel

/-- V2, the source's CTR scenario: `"Gut gemacht!"`. -/
theorem test_mdec :
    responseOf (exec (.mdec (bitsOf 128 0x04D20BB8028F8E7F605143A013672BB0)) k2) =
      ok (.text [71, 117, 116, 32, 103, 101, 109, 97, 99, 104, 116, 33]) := by decide +kernel

/-- R204: an empty ciphertext has no IV. -/
theorem test_mdec_empty :
    responseOf (exec (.mdec []) k2) = bad .lengthMismatch := by decide +kernel

/-! ## Witnesses: concrete states and operands that meet the hypotheses of each obligation -/

/-- The hypothesis "the position of the last `1`", from a bounded search. -/
theorem lastOne_of_bounded (p : Bits) (i : Nat)
    (h : p[i]? = some true ∧ ∀ j < p.length, i < j → p[j]? ≠ some true) :
    p[i]? = some true ∧ ∀ j : Nat, i < j → p[j]? ≠ some true := by
  refine ⟨h.1, fun j hj => ?_⟩
  by_cases hl : j < p.length
  · exact h.2 j hl hj
  · simp [List.getElem?_eq_none (show p.length ≤ j by omega)]

theorem toy_valid : toy.Valid := storeOf_valid _ _ _ _ _ _ (by decide)

theorem toy_ready : toyCore.engine = .ready toy ∧ toy.Valid := ⟨rfl, toy_valid⟩

theorem reset_notReady : State.reset.NotReady := fun _ h => by cases h

theorem toy_inv : toyCore.Inv where
  idle := rfl
  idx_zero := rfl
  store_valid := by
    intro c h
    cases h
    exact toy_valid
  datapath_fits := ⟨.inl rfl, .inl rfl, .inl rfl, Nat.zero_le _⟩
  err_recorded := by intro e h; cases h
  degen_recorded := by intro h; cases h
  failure_recorded := by intro h; cases h

theorem witness_DecodeAndEncodeAgree :
    decode ⟨0x17, {}⟩ = .instr (.xor [] []) ∧ (0x18 : Opcode) ∉ definedOpcodes :=
  by decide

theorem witness_StepRunsDecodedCommand :
    { State.reset with pending := [.command ⟨0x02, {}⟩] }.pending =
      .command ⟨0x02, {}⟩ :: [] ∧ decode ⟨0x02, {}⟩ = .instr .stat :=
  ⟨rfl, rfl⟩

theorem witness_UndefinedOpcodeIsIllegal :
    { State.reset with pending := [.command ⟨0xFF, {}⟩] }.pending =
      .command ⟨0xFF, {}⟩ :: [] ∧ (0xFF : Opcode) ∉ definedOpcodes :=
  ⟨rfl, by decide⟩

theorem witness_ResetEventResetsCore :
    { toyCore with pending := [.reset] }.pending = .reset :: [] ∧
    ∃ c, { toyCore with pending := [.cutShort ⟨0x30, {}⟩] }.pending =
      .cutShort c :: [] :=
  ⟨rfl, _, rfl⟩

theorem witness_CoreWaitsWithoutEvent :
    State.reset.pending = [] :=
  rfl

theorem witness_InvariantKeptByEveryStep :
    toyCore.Inv ∧ ∃ t, step toyCore = .next t :=
  ⟨toy_inv, _, rfl⟩

theorem witness_InvariantKeptByEveryStep_command :
    { toyCore with pending := [.command ⟨0x13, {}⟩] }.Inv ∧
    ∃ t, step { toyCore with pending := [.command ⟨0x13, {}⟩] } = .next t :=
  ⟨⟨rfl, rfl, toy_inv.store_valid, toy_inv.datapath_fits, toy_inv.err_recorded,
    toy_inv.degen_recorded, toy_inv.failure_recorded⟩, _, rfl⟩

theorem witness_LifecycleAdmission :
    State.reset.NotReady ∧ (Instr.join []) ≠ .stat ∧
    (∀ n m r sbox perm key, (Instr.join []) ≠ .cfg n m r sbox perm key) ∧
    toyCore.engine ≠ .unconfigured ∧
    { State.reset with engine := .failed }.engine ≠ .unconfigured ∧ toyCore.engine = .ready toy ∧
    (∀ a, (Instr.join []) ≠ .b2s a 0) ∧ (∀ a, (Instr.join []) ≠ .s2b a 0) ∧
    (∀ a, (Instr.join []) ≠ .pad a 0) ∧ (∀ a, (Instr.join []) ≠ .split a 0) ∧
    (∃ t, exec (.join []) toyCore = .next t) ∧ State.reset.engine = .unconfigured ∧
    ∃ t, exec (.cfg 0 0 0 [] [] []) State.reset = .next t :=
  ⟨reset_notReady, by decide, by simp, by decide, by decide, rfl, by simp, by simp, by simp, by simp,
    ⟨_, rfl⟩, rfl, _, rfl⟩

theorem witness_StoreIsImmutable :
    (∀ n m r sbox perm key, (Instr.enc []) ≠ .cfg n m r sbox perm key) ∧
    (∃ t, exec (.enc []) toyCore = .next t) ∧ toyCore.engine ≠ .unconfigured ∧
    (∃ t, step toyCore = .next t) :=
  ⟨by simp, ⟨_, rfl⟩, by decide, _, rfl⟩

theorem witness_RaiseDoesWhatR228Says :
    (Instr.xor [true] []) ≠ .stat ∧
    exec (.xor [true] []) toyCore = .next (after (.xor [true] []) toyCore) ∧
    (after (.xor [true] []) toyCore).err = some .lengthMismatch ∧
    (after (.cfg 0 0 0 [] [] []) State.reset).err = some .configurationError ∧
    (after (.kgen []) toyCore).err = some .configurationError :=
  ⟨by decide, rfl, rfl, rfl, rfl⟩

theorem witness_RaiseDoesWhatR228Says_opcode :
    ∃ t, step { toyCore with pending := [.command ⟨0x00, {}⟩] } = .next t ∧
      (0x00 : Opcode) ∉ definedOpcodes :=
  ⟨_, rfl, by decide⟩

theorem witness_ErrorsLeaveDatapath :
    (Instr.sub []) ≠ .stat ∧ (∀ a, (Instr.sub []) ≠ .mdec a) ∧
    exec (.sub []) toyCore = .next (after (.sub []) toyCore) ∧
    (after (.sub []) toyCore).err = some .lengthMismatch :=
  ⟨by decide, by simp, rfl, rfl⟩

theorem witness_StickyRecords :
    (Instr.b2t []) ≠ .stat ∧ exec (.b2t []) toyCore = .next (after (.b2t []) toyCore) ∧
    (after (.b2t []) toyCore).err = none ∧ (after (.b2t []) toyCore).degen = true ∧
    (after (.enc []) toyCore).err = some .lengthMismatch ∧ (∃ t, exec .stat toyCore = .next t) :=
  ⟨by decide, rfl, rfl, rfl, rfl, _, rfl⟩

theorem witness_StatusLayout :
    State.reset.engine = .unconfigured ∧ toyCore.engine = .ready toy ∧
    { State.reset with engine := .failed }.engine = .failed ∧ State.reset.err = none ∧
    (Instr.xor [true] []) ≠ .stat ∧
    (∃ t, exec (.kgen []) toyCore = .next t ∧ t.err = some .configurationError) ∧
    (∃ t, exec (.xor [true] []) toyCore = .next t ∧ t.err = some .lengthMismatch) ∧
    (∃ t, exec (.t2b [256]) toyCore = .next t ∧ t.err = some .rangeError) ∧
    ∃ t, exec (.pad [] 0) toyCore = .next t ∧ t.err = some .illegalCommand :=
  ⟨rfl, rfl, rfl, rfl, by decide, ⟨_, rfl, rfl⟩, ⟨_, rfl, rfl⟩, ⟨_, rfl, rfl⟩, _, rfl, rfl⟩

theorem witness_ResponseDependsOnStoreOnly :
    (Instr.enc (zeros 4)) ≠ .stat ∧ toyCore.engine = { toyCore with blk := [true] }.engine ∧
    (∀ c, toyCore.engine = .ready c → c.Valid) ∧
    (∃ t, exec (.enc (zeros 4)) toyCore = .next t) ∧
    ∃ t, exec (.enc (zeros 4)) { toyCore with blk := [true] } = .next t :=
  ⟨by decide, rfl, toy_inv.store_valid, ⟨_, rfl⟩, _, rfl⟩

theorem witness_IllFormedCommandsRaise :
    (Instr.b2s [] 0).wellFormed = false ∧ ∃ t, exec (.b2s [] 0) toyCore = .next t :=
  ⟨rfl, _, rfl⟩

theorem witness_CfgRule :
    toyCore.engine ≠ .unconfigured ∧ State.reset.engine = .unconfigured ∧
    CfgAccepts 1 1 1 [1, 0] [0] [true, false] ∧ ¬CfgAccepts 1 1 1 [1, 0] [0] [true] ∧
    ¬CfgAccepts 0 1 1 [0] [] [] :=
  ⟨by decide, rfl, (cfgAccepts_iff _ _ _ _ _ _).mpr (by decide),
    fun h => absurd h.key_length (by decide), fun h => absurd h.n_pos (by decide)⟩

theorem witness_IntegerView :
    (0 : Nat) < 1 ∧ ([true, false] : Bits).length = 2 ∧ val [true, false] = 2 % 2 ^ 2 :=
  by decide

theorem witness_B2sRule :
    State.reset.NotReady ∧ toyCore.engine = .ready toy ∧ (0 : Nat) < 1 :=
  ⟨reset_notReady, rfl, by decide⟩

theorem witness_S2bRule :
    State.reset.NotReady ∧ toyCore.engine = .ready toy ∧ (0 : Nat) < 4 ∧
    (∃ x ∈ ([16] : Syms), 2 ^ 4 ≤ x) ∧ ∀ x ∈ ([15] : Syms), x < 2 ^ 4 :=
  ⟨reset_notReady, rfl, by decide, by decide, by decide⟩

theorem witness_T2bRule :
    State.reset.NotReady ∧ toyCore.engine = .ready toy ∧
    (∃ x ∈ ([256] : Text), 256 ≤ x) ∧ ∀ x ∈ ([255] : Text), x < 256 :=
  ⟨reset_notReady, rfl, by decide, by decide⟩

theorem witness_B2tRule :
    State.reset.NotReady ∧ toyCore.engine = .ready toy ∧ (∀ i : Nat, ([] : Bits)[i]? ≠ some true) ∧
    (([true] : Bits)[0]? = some true ∧ ∀ j : Nat, 0 < j → ([true] : Bits)[j]? ≠ some true) ∧
    0 % 8 = 0 ∧
    (([false, true] : Bits)[1]? = some true ∧
      ∀ j : Nat, 1 < j → ([false, true] : Bits)[j]? ≠ some true) ∧ 1 % 8 ≠ 0 :=
  ⟨reset_notReady, rfl, by simp, lastOne_of_bounded _ _ (by decide), rfl,
    lastOne_of_bounded _ _ (by decide), by decide⟩

theorem witness_PadRule :
    State.reset.NotReady ∧ toyCore.engine = .ready toy ∧ (0 : Nat) < 1 :=
  ⟨reset_notReady, rfl, by decide⟩

theorem witness_SplitRule :
    State.reset.NotReady ∧ toyCore.engine = .ready toy ∧ (0 : Nat) < 1 :=
  ⟨reset_notReady, rfl, by decide⟩

theorem witness_JoinRule :
    State.reset.NotReady ∧ toyCore.engine = .ready toy ∧ (0 : Nat) < 1 :=
  ⟨reset_notReady, rfl, by decide⟩

theorem witness_XorRule :
    State.reset.NotReady ∧ toyCore.engine = .ready toy ∧ ([] : Bits).length = ([] : Bits).length ∧
    ([true] : Bits).length ≠ ([] : Bits).length :=
  ⟨reset_notReady, rfl, rfl, by decide⟩

theorem witness_SymbolRoundTrips :
    toyCore.engine = .ready toy ∧ (0 : Nat) < 1 ∧ ∀ x ∈ ([1, 0] : Syms), x < 2 ^ 1 :=
  ⟨rfl, by decide, by decide⟩

theorem witness_PaddingRoundTrip :
    toyCore.engine = .ready toy ∧ (0 : Nat) < 1 ∧ ∀ x ∈ ([255, 0] : Text), x < 256 :=
  ⟨rfl, by decide, by decide⟩

theorem witness_SubRule :
    State.reset.NotReady ∧ (toyCore.engine = .ready toy ∧ toy.Valid) ∧ ([0] : Syms).length ≠ toy.m ∧
    (([4, 0] : Syms).length = toy.m ∧ ∃ x ∈ ([4, 0] : Syms), 2 ^ toy.n ≤ x) ∧
    ([3, 0] : Syms).length = toy.m ∧ ∀ x ∈ ([3, 0] : Syms), x < 2 ^ toy.n :=
  ⟨reset_notReady, toy_ready, by decide, by decide, by decide⟩

theorem witness_IsubRule :
    State.reset.NotReady ∧ (toyCore.engine = .ready toy ∧ toy.Valid) ∧ ([0] : Syms).length ≠ toy.m ∧
    (([4, 0] : Syms).length = toy.m ∧ ∃ x ∈ ([4, 0] : Syms), 2 ^ toy.n ≤ x) ∧
    ([3, 0] : Syms).length = toy.m ∧ ∀ x ∈ ([3, 0] : Syms), x < 2 ^ toy.n :=
  ⟨reset_notReady, toy_ready, by decide, by decide, by decide⟩

theorem witness_SubstitutionInverse :
    (toyCore.engine = .ready toy ∧ toy.Valid) ∧ ([3, 0] : Syms).length = toy.m ∧
    ∀ x ∈ ([3, 0] : Syms), x < 2 ^ toy.n :=
  ⟨toy_ready, by decide, by decide⟩

theorem witness_PrmRule :
    State.reset.NotReady ∧ (toyCore.engine = .ready toy ∧ toy.Valid) ∧
    (zeros 3).length ≠ toy.width ∧ (zeros 4).length = toy.width :=
  ⟨reset_notReady, toy_ready, by decide, by decide⟩

theorem witness_IprmRule :
    State.reset.NotReady ∧ (toyCore.engine = .ready toy ∧ toy.Valid) ∧
    (zeros 3).length ≠ toy.width ∧ (zeros 4).length = toy.width :=
  ⟨reset_notReady, toy_ready, by decide, by decide⟩

theorem witness_EncRule :
    State.reset.NotReady ∧ (toyCore.engine = .ready toy ∧ toy.Valid) ∧
    (zeros 3).length ≠ toy.width ∧ (zeros 4).length = toy.width :=
  ⟨reset_notReady, toy_ready, by decide, by decide⟩

theorem witness_DecRule :
    State.reset.NotReady ∧ (toyCore.engine = .ready toy ∧ toy.Valid) ∧
    (zeros 3).length ≠ toy.width ∧ (zeros 4).length = toy.width :=
  ⟨reset_notReady, toy_ready, by decide, by decide⟩

theorem witness_PermutationInverse :
    (toyCore.engine = .ready toy ∧ toy.Valid) ∧ (zeros 4).length = toy.width :=
  ⟨toy_ready, by decide⟩

theorem witness_KgenRule :
    State.reset.NotReady ∧ (toyCore.engine = .ready toy ∧ toy.Valid) ∧
    (zeros 7).length < toy.n * (toy.m + toy.r) ∧
    toy.n * (toy.m + toy.r) ≤ (bitsOf 8 0x1B).length ∧
    ∀ j < toy.m + toy.r, toy.key[j]? = some (val (subBits (bitsOf 8 0x1B) (j * toy.n) toy.n)) :=
  ⟨reset_notReady, toy_ready, by decide, by decide, by decide⟩

theorem witness_MicroStepTable :
    (stepWhiten toy (zeros 4) toyCore).phase = .whitened ∧
    (stepWhiten toy (zeros 4) toyCore).rnd + 1 < toy.r ∧
    (stepRound toy 1 toyCore).phase = .round ∧ (stepRound toy 1 toyCore).rnd + 1 = toy.r ∧
    (stepUnFinal toy (zeros 4) toyCore).phase = .unFinal ∧
    1 ≤ (stepUnFinal toy (zeros 4) toyCore).rnd - 1 ∧
    (stepUnRound toy 1 toyCore).phase = .unRound ∧ (stepUnRound toy 1 toyCore).rnd - 1 = 0 ∧
    (stepFinal toy toyCore).phase = .finalRound ∧ (stepUnWhiten toy toyCore).phase = .unWhitened ∧
    { toyCore with phase := .output }.phase = .output :=
  by decide

theorem witness_EnginePhaseChain :
    1 ≤ toy.r ∧ 1 ≤ 1 ∧ 1 < toy.r :=
  by decide

theorem witness_EncDecRoundTrip :
    (toyCore.engine = .ready toy ∧ toy.Valid) ∧ (zeros 4).length = toy.width :=
  ⟨toy_ready, by decide⟩

theorem witness_CounterIsModular :
    1 ≤ 1 ∧ (bitsOf 4 15).length = 4 :=
  by decide

theorem witness_CtrxRule :
    State.reset.NotReady ∧ (toyCore.engine = .ready toy ∧ toy.Valid) ∧
    (∃ b ∈ [zeros 4, zeros 3], b.length ≠ toy.width) ∧ (∀ b ∈ [zeros 4], b.length = toy.width) ∧
    ∀ b ∈ zeros 4 :: [bitsOf 4 9], b.length = toy.width :=
  ⟨reset_notReady, toy_ready, by decide, by decide, by decide⟩

theorem witness_CtreRule :
    State.reset.NotReady ∧ (toyCore.engine = .ready toy ∧ toy.Valid) ∧
    (∃ b ∈ zeros 3 :: [], b.length ≠ toy.width) ∧ (∃ b ∈ zeros 4 :: [[]], b.length ≠ toy.width) ∧
    ∀ b ∈ zeros 4 :: [bitsOf 4 9], b.length = toy.width :=
  ⟨reset_notReady, toy_ready, by decide, by decide, by decide⟩

theorem witness_MencRule :
    State.reset.NotReady ∧ (toyCore.engine = .ready toy ∧ toy.Valid) ∧ (zeros 3).length ≠ toy.width ∧
    (zeros 4).length = toy.width ∧ (∃ x ∈ ([256] : Text), 256 ≤ x) ∧
    ∀ x ∈ ([255] : Text), x < 256 :=
  ⟨reset_notReady, toy_ready, by decide, by decide, by decide, by decide⟩

/-- A ciphertext under `toy` whose recovered bits are `x`, and those bits as `MdecRule` writes them. -/
def mdecInput (x : Bits) : Bits := zeros 4 ++ xorBits x (keystream toy (zeros 4) 1)
def recovered (x : Bits) : Bits :=
  xorBits ((mdecInput x ++ zeros 0).drop toy.width)
    (keystream toy (subBits (mdecInput x ++ zeros 0) 0 toy.width) 1)

theorem recovered_examples :
    recovered (zeros 4) = zeros 4 ∧ recovered (bitsOf 4 8) = bitsOf 4 8 ∧
    recovered (bitsOf 4 4) = bitsOf 4 4 ∧
    (mdecInput (zeros 4)).length + 0 = (1 + 1) * toy.width := by decide +kernel

theorem witness_MdecRule :
    State.reset.NotReady ∧ (toyCore.engine = .ready toy ∧ toy.Valid) ∧
    mdecInput (zeros 4) ≠ [] ∧ mdecInput (bitsOf 4 8) ≠ [] ∧ mdecInput (bitsOf 4 4) ≠ [] ∧
    (∀ i : Nat, (recovered (zeros 4))[i]? ≠ some true) ∧
    ((recovered (bitsOf 4 8))[0]? = some true ∧
      ∀ j : Nat, 0 < j → (recovered (bitsOf 4 8))[j]? ≠ some true) ∧ 0 % 8 = 0 ∧
    ((recovered (bitsOf 4 4))[1]? = some true ∧
      ∀ j : Nat, 1 < j → (recovered (bitsOf 4 4))[j]? ≠ some true) ∧ 1 % 8 ≠ 0 := by
  obtain ⟨h1, h2, h3, -⟩ := recovered_examples
  rw [h1, h2, h3]
  exact ⟨reset_notReady, toy_ready, by simp [mdecInput, zeros], by simp [mdecInput, zeros],
    by simp [mdecInput, zeros],
    fun i => by simp only [zeros, List.getElem?_replicate]; split <;> simp,
    lastOne_of_bounded _ _ (by decide), rfl, lastOne_of_bounded _ _ (by decide), by decide⟩

theorem witness_CtrSymmetry :
    (toyCore.engine = .ready toy ∧ toy.Valid) ∧
    ∀ b ∈ zeros 4 :: [bitsOf 4 9, bitsOf 4 1], b.length = toy.width :=
  ⟨toy_ready, by decide⟩

theorem witness_MessageRoundTrip :
    (toyCore.engine = .ready toy ∧ toy.Valid) ∧ (zeros 4).length = toy.width ∧
    ∀ x ∈ ([72, 105] : Text), x < 256 :=
  ⟨toy_ready, by decide, by decide⟩

theorem witness_KeystreamIndependence :
    (toyCore.engine = .ready toy ∧ toy.Valid) ∧
    (∀ b ∈ zeros 4 :: [bitsOf 4 9, bitsOf 4 1], b.length = toy.width) ∧
    [bitsOf 4 9, bitsOf 4 1][1]? = some (bitsOf 4 1) ∧ (bitsOf 4 15).length = toy.width :=
  ⟨toy_ready, by decide, by decide, by decide⟩

theorem witness_PipelinesComputeFunctions :
    (toyCore.engine = .ready toy ∧ toy.Valid) ∧
    (∀ b ∈ zeros 4 :: [bitsOf 4 9], b.length = toy.width) ∧ (zeros 4).length = toy.width ∧
    (∀ x ∈ ([255] : Text), x < 256) ∧ mdecInput (zeros 4) ≠ [] ∧
    decodeMessage toy (mdecInput (zeros 4)) = .noMarker ∧
    decodeMessage toy (mdecInput (bitsOf 4 8)) = .text [] ∧
    decodeMessage toy (mdecInput (bitsOf 4 4)) = .misaligned :=
  ⟨toy_ready, by decide, by decide, by decide, by decide +kernel, by decide +kernel,
    by decide +kernel, by decide +kernel⟩

end Sys2Proof.Tests
end

section
/-!
The lifecycle and the configuration store along a step (R40): only `CFG` in `Unconfigured` writes them,
and only a reset event takes them back to their reset values.
-/

namespace Sys2Proof.Machine

/-- Everything `step s = .next t` can mean: one case per form of the next event. -/
inductive StepCase (s t : State) : Prop where
  /-- No event: the core waits (R251). -/
  | waited (hp : s.pending = []) (ht : t = s)
  /-- A reset, also one that cuts a command short (R250). -/
  | wasReset (rest : List HostEvent)
      (hp : s.pending = .reset :: rest ∨ ∃ c, s.pending = .cutShort c :: rest) (ht : t = resetTo rest)
  /-- A command whose opcode R90 does not define (R91 (a)). -/
  | rejected (c : Command) (op : Opcode) (rest : List HostEvent) (hp : s.pending = .command c :: rest)
      (hc : decode c = .undefinedOpcode op)
      (ht : t = raiseErr .illegalCommand { s with pending := rest })
  /-- A command that decodes (R88). -/
  | ran (c : Command) (i : Instr) (rest : List HostEvent) (hp : s.pending = .command c :: rest)
      (hc : decode c = .instr i) (hx : exec i { s with pending := rest } = .next t)

/-- Everything a step can do. -/
theorem step_cases (s t : State) (h : step s = .next t) : StepCase s t := by
  unfold step fetch at h
  rcases hp : s.pending with _ | ⟨ev, rest⟩
  · simp only [hp] at h
    injection h with h
    exact .waited hp h.symm
  · cases ev with
    | reset =>
      simp only [hp] at h
      injection h with h
      exact .wasReset rest (.inl hp) h.symm
    | cutShort c =>
      simp only [hp] at h
      injection h with h
      exact .wasReset rest (.inr ⟨c, hp⟩) h.symm
    | command c =>
      cases hc : decode c with
      | instr i =>
        simp only [hp, hc] at h
        exact .ran c i rest hp hc h
      | undefinedOpcode op =>
        simp only [hp, hc] at h
        injection h with h
        exact .rejected c op rest hp hc h.symm

theorem DatapathOnly.engine_eq {s t : State} (h : DatapathOnly s t) : t.engine = s.engine := by
  unfold DatapathOnly at h
  rw [h]

/-- A command keeps lifecycle and store unless it is `CFG` in `Unconfigured` (R40). -/
theorem exec_engine_eq_or_cfg (i : Instr) (s t : State) (h : exec i s = .next t) :
    t.engine = s.engine ∨
      s.engine = .unconfigured ∧ ∃ n m r sbox perm key, i = .cfg n m r sbox perm key := by
  cases exec_cases i s t h with
  | stat _ ht => exact .inl (by rw [ht])
  | raised e _ ht => exact .inl (by rw [ht, raiseErr_engine])
  | late _ _ _ _ _ hu ht => exact .inl (by rw [ht, raiseErr_engine, hu.only.engine_eq])
  | fatal n m r sbox perm key hi hs => exact .inr ⟨hs, n, m, r, sbox, perm, key, hi⟩
  | built n m r sbox perm key hi hs => exact .inr ⟨hs, n, m, r, sbox, perm, key, hi⟩
  | done _ _ _ _ _ _ hu ht => exact .inl (by rw [ht, complete_engine, hu.only.engine_eq])

/-- `CFG` is admitted in `Unconfigured` only (R40, R92). -/
theorem execCfg_configured (n m r : Nat) (sbox perm : Syms) (key : Bits) (s : State)
    (hs : s.engine ≠ .unconfigured) :
    execCfg n m r sbox perm key s = answerErr .illegalCommand s := by
  unfold execCfg
  cases he : s.engine with
  | unconfigured => exact absurd he hs
  | ready _ | failed => rfl

/-- A step of a core that is not `Unconfigured` keeps lifecycle and store, or resets the core (R40). -/
theorem step_engine_eq_or_reset (s t : State) (hs : s.engine ≠ .unconfigured)
    (h : step s = .next t) :
    t.engine = s.engine ∨
      ∃ rest, (s.pending = .reset :: rest ∨ ∃ c, s.pending = .cutShort c :: rest) ∧
        t = resetTo rest := by
  cases step_cases s t h with
  | waited _ ht => exact .inl (by rw [ht])
  | wasReset rest hp ht => exact .inr ⟨rest, hp, ht⟩
  | rejected _ _ _ _ _ ht => exact .inl (by rw [ht, raiseErr_engine])
  | ran _ i rest _ _ hx =>
    rcases exec_engine_eq_or_cfg i _ t hx with he | ⟨hu, -⟩
    · exact .inl he
    · exact absurd hu hs

end Sys2Proof.Machine

open Sys2Proof Sys2Proof.Machine

/-- Settles O12: the inversions of `exec` and of `step` leave `CFG` in `Unconfigured` and the reset
events as the only writers of the lifecycle. -/
theorem storeIsImmutable : Obligations.StoreIsImmutable := by
  refine ⟨fun i s t hi h => ?_, fun s n m r sbox perm key hs => ?_, step_engine_eq_or_reset⟩
  · rcases exec_engine_eq_or_cfg i s t h with he | ⟨-, n, m, r, sbox, perm, key, hc⟩
    · exact he
    · exact absurd hc (hi n m r sbox perm key)
  · exact raises_of_answerErr _ s _ (execCfg_configured n m r sbox perm key s hs)

end

section
/-!
The admission table (R92): outside `Ready` the lifecycle check refuses, in `Ready` only a zero width does
(R129), and the two system commands have rows of their own.
-/

namespace Sys2Proof.Machine

/-- The answer is not the error IllegalCommand. -/
def NeverIllegal (x : Answer) : Prop :=
  ∀ t, x = .next t → t.err ≠ some .illegalCommand

theorem neverIllegal_next {t : State} (h : t.err ≠ some .illegalCommand) : NeverIllegal (.next t) := by
  rintro _ ⟨⟩
  exact h

theorem neverIllegal_ok {q : Result} {s : State} : NeverIllegal (answerOk q s) :=
  neverIllegal_next (by simp)

theorem neverIllegal_err {e : ErrClass} {s : State} (h : e ≠ .illegalCommand) :
    NeverIllegal (answerErr e s) :=
  neverIllegal_next (by simpa using h)

theorem neverIllegal_text {d : DecodedText} {s : State} : NeverIllegal (answerText d s) := by
  rcases answerText_cases d s with ⟨_, -, h⟩ | ⟨-, h⟩ | ⟨-, h⟩ <;> rw [h]
  · exact neverIllegal_next (by simp)
  · exact neverIllegal_next (by simp)
  · exact neverIllegal_next (by simp)

theorem neverIllegal_ite {p : Prop} [Decidable p] {x y : Answer} (hx : NeverIllegal x)
    (hy : NeverIllegal y) : NeverIllegal (if p then x else y) := by
  split
  · exact hx
  · exact hy

/-- Past the zero-width check (R129). -/
theorem neverIllegal_width {k : Nat} {s : State} {x : Answer} (hk : k ≠ 0) (hx : NeverIllegal x) :
    NeverIllegal (whenWidth k s x) := by
  rwa [whenWidth_pos k s x (Nat.pos_of_ne_zero hk)]

theorem neverIllegal_block {c : Store} {a : Bits} {s : State} {x : Answer} (hx : NeverIllegal x) :
    NeverIllegal (whenBlock c a s x) :=
  neverIllegal_ite hx (neverIllegal_err (by decide))

theorem neverIllegal_blockSyms {c : Store} {a : Syms} {s : State} {x : Answer} (hx : NeverIllegal x) :
    NeverIllegal (whenBlockSyms c a s x) :=
  neverIllegal_ite (neverIllegal_err (by decide)) (neverIllegal_ite hx (neverIllegal_err (by decide)))

/-- Past the lifecycle check (R92). -/
theorem neverIllegal_ready {s : State} {c : Store} {run : Store → Answer} (hs : s.engine = .ready c)
    (hx : NeverIllegal (run c)) : NeverIllegal (whenReady s run) := by
  rwa [whenReady_ready s c run hs]

/-- Every command but `CFG` and `STAT` runs behind the lifecycle check (R92). -/
theorem exec_behind_whenReady (i : Instr) (hi : i ≠ .stat)
    (hcfg : ∀ n m r sbox perm key, i ≠ .cfg n m r sbox perm key) :
    ∃ run : State → Store → Answer, ∀ s, exec i s = whenReady s (run s) := by
  cases i with
  | cfg n m r sbox perm key => exact absurd rfl (hcfg n m r sbox perm key)
  | stat => exact absurd rfl hi
  | _ => exact ⟨_, fun _ => rfl⟩

/-- In `Ready` a command with no zero width does not end with IllegalCommand (R92, R129). -/
theorem exec_ready_neverIllegal (i : Instr) (s : State) (c : Store) (hs : s.engine = .ready c)
    (hi : i ≠ .stat) (hcfg : ∀ n m r sbox perm key, i ≠ .cfg n m r sbox perm key)
    (hb2s : ∀ a, i ≠ .b2s a 0) (hs2b : ∀ a, i ≠ .s2b a 0)
    (hpad : ∀ a, i ≠ .pad a 0) (hsplit : ∀ a, i ≠ .split a 0) : NeverIllegal (exec i s) := by
  have hlen {s : State} : NeverIllegal (answerErr .lengthMismatch s) := neverIllegal_err (by decide)
  have hrange {s : State} : NeverIllegal (answerErr .rangeError s) := neverIllegal_err (by decide)
  have hkey : NeverIllegal (answerErr .configurationError s) := neverIllegal_err (by decide)
  cases i with
  | cfg n m r sbox perm key => exact absurd rfl (hcfg n m r sbox perm key)
  | stat => exact absurd rfl hi
  | b2s a k =>
    have hk : k ≠ 0 := fun h => hb2s a (by rw [h])
    exact neverIllegal_ready hs (neverIllegal_width hk neverIllegal_ok)
  | s2b a k =>
    have hk : k ≠ 0 := fun h => hs2b a (by rw [h])
    exact neverIllegal_ready hs (neverIllegal_width hk (neverIllegal_ite neverIllegal_ok hrange))
  | pad a k =>
    have hk : k ≠ 0 := fun h => hpad a (by rw [h])
    exact neverIllegal_ready hs (neverIllegal_width hk neverIllegal_ok)
  | split a k =>
    have hk : k ≠ 0 := fun h => hsplit a (by rw [h])
    exact neverIllegal_ready hs (neverIllegal_width hk neverIllegal_ok)
  | t2b a => exact neverIllegal_ready hs (neverIllegal_ite neverIllegal_ok hrange)
  | b2t a => exact neverIllegal_ready hs neverIllegal_text
  | join a => exact neverIllegal_ready hs neverIllegal_ok
  | xor a b => exact neverIllegal_ready hs (neverIllegal_ite neverIllegal_ok hlen)
  | sub a | isub a => exact neverIllegal_ready hs (neverIllegal_blockSyms neverIllegal_ok)
  | prm a | iprm a | enc a | dec a =>
    exact neverIllegal_ready hs (neverIllegal_block neverIllegal_ok)
  | kgen a => exact neverIllegal_ready hs (neverIllegal_ite hkey neverIllegal_ok)
  | ctrx a | ctre b a =>
    exact neverIllegal_ready hs (neverIllegal_ite hlen (neverIllegal_ite neverIllegal_ok hlen))
  | menc a b =>
    exact neverIllegal_ready hs (neverIllegal_ite hlen (neverIllegal_ite neverIllegal_ok hrange))
  | mdec a => exact neverIllegal_ready hs (neverIllegal_ite hlen neverIllegal_text)

/-- `CFG` in `Unconfigured` builds the store, or refuses its operands for good (R210, R213). -/
theorem execCfg_unconfigured (n m r : Nat) (sbox perm : Syms) (key : Bits) (s : State)
    (hs : s.engine = .unconfigured) :
    execCfg n m r sbox perm key s =
      if cfgValid n m r sbox perm key then
        .next (complete false none { s with engine := .ready (storeOf n m r sbox perm key) })
      else .next (raiseFatal s) := by
  simp only [execCfg, hs]

end Sys2Proof.Machine

open Sys2Proof Sys2Proof.Machine

/-- Settles O11: one case per row of R92's table, each from the lifecycle check and the checks after it. -/
theorem lifecycleAdmission : Obligations.LifecycleAdmission := by
  refine ⟨fun i s hs hi hcfg => ?_, fun s n m r sbox perm key hs => ?_,
    fun i s t c hs hi hcfg hb2s hs2b hpad hsplit => ?_, fun s t n m r sbox perm key hs => ?_,
    fun s => ⟨_, _, rfl, rfl, rfl⟩⟩
  · obtain ⟨run, hrun⟩ := exec_behind_whenReady i hi hcfg
    exact raises_of_answerErr i s _ ((hrun s).trans (whenReady_notReady s _ hs))
  · exact raises_of_answerErr _ s _ (execCfg_configured n m r sbox perm key s hs)
  · exact exec_ready_neverIllegal i s c hs hi hcfg hb2s hs2b hpad hsplit t
  · have h : NeverIllegal (execCfg n m r sbox perm key s) := by
      rw [execCfg_unconfigured n m r sbox perm key s hs]
      exact neverIllegal_ite (neverIllegal_next (by simp)) (neverIllegal_next (by simp))
    exact h t

end

section
/-!
How the codec commands answer (R110): outside `Ready` the lifecycle check refuses them (R92), a zero width
is refused next (R129), and in `Ready` each has one equation per outcome.
-/

namespace Sys2Proof.Machine

variable {i : Instr} {s : State} {c : Store}

/-! ## Checks and completion, of any command -/

theorem raises_of_notReady {run : Store → Answer} (hx : exec i s = whenReady s run)
    (hs : s.NotReady) : Raises i s .illegalCommand :=
  raises_of_answerErr i s _ (hx.trans (whenReady_notReady s run hs))

theorem raises_of_zeroWidth {k : Nat} {x : Answer}
    (hx : exec i s = whenReady s fun _ => whenWidth k s x) (hs : s.engine = .ready c) (hk : k = 0) :
    Raises i s .illegalCommand := by
  subst hk
  exact raises_of_answerErr i s _ ((hx.trans (whenReady_ready s c _ hs)).trans (whenWidth_zero s x))

theorem exec_of_positiveWidth {k : Nat} {x : Answer}
    (hx : exec i s = whenReady s fun _ => whenWidth k s x) (hs : s.engine = .ready c) (hk : 0 < k) :
    exec i s = x :=
  (hx.trans (whenReady_ready s c _ hs)).trans (whenWidth_pos k s x hk)

theorem completed_of_complete {q : Result} {d : Bool}
    (hx : exec i s = .next (complete d (some q) s)) :
    ∃ t, exec i s = .next t ∧ Completed s t q d ∧ SameDatapath s t :=
  ⟨_, hx, complete_completed d q s, complete_sameDatapath d (some q) s⟩

/-! ## Each codec command in `Ready` -/

theorem exec_b2s (a : Bits) {k : Nat} (hs : s.engine = .ready c) (hk : 0 < k) :
    exec (.b2s a k) s = answerOk (.syms (bitsToSymbols a k)) s :=
  exec_of_positiveWidth rfl hs hk

theorem exec_s2b_inRange {a : Syms} {k : Nat} (hs : s.engine = .ready c) (hk : 0 < k)
    (ha : ∀ x ∈ a, x < 2 ^ k) : exec (.s2b a k) s = answerOk (.bits (symbolsToBits a k)) s :=
  (exec_of_positiveWidth rfl hs hk).trans (if_pos ((allBelow_iff _ _).mpr ha))

theorem exec_s2b_outOfRange {a : Syms} {k : Nat} (hs : s.engine = .ready c) (hk : 0 < k)
    (ha : ∃ x ∈ a, 2 ^ k ≤ x) : exec (.s2b a k) s = answerErr .rangeError s := by
  have hbad : ¬ allBelow (2 ^ k) a = true := by simpa [allBelow_iff] using ha
  exact (exec_of_positiveWidth rfl hs hk).trans (if_neg hbad)

theorem exec_t2b_bytes {a : Text} (hs : s.engine = .ready c) (ha : ∀ x ∈ a, x < 256) :
    exec (.t2b a) s = answerOk (.bits (textToBits a)) s :=
  (whenReady_ready s c _ hs).trans (if_pos ((isByteText_iff a).mpr ha))

theorem exec_t2b_wide {a : Text} (hs : s.engine = .ready c) (ha : ∃ x ∈ a, 256 ≤ x) :
    exec (.t2b a) s = answerErr .rangeError s := by
  have hbad : ¬ isByteText a = true := by simpa [isByteText_iff] using ha
  exact (whenReady_ready s c _ hs).trans (if_neg hbad)

theorem exec_b2t (a : Bits) (hs : s.engine = .ready c) :
    exec (.b2t a) s = answerText (bitsToText a) s :=
  whenReady_ready s c _ hs

theorem exec_pad (a : Bits) {k : Nat} (hs : s.engine = .ready c) (hk : 0 < k) :
    exec (.pad a k) s = answerOk (.bits (padForBlocks a k)) s :=
  exec_of_positiveWidth rfl hs hk

theorem exec_split (a : Bits) {k : Nat} (hs : s.engine = .ready c) (hk : 0 < k) :
    exec (.split a k) s = answerOk (.blocks (splitIntoBlocks a k)) s :=
  exec_of_positiveWidth rfl hs hk

theorem exec_join (a : Blocks) (hs : s.engine = .ready c) :
    exec (.join a) s = answerOk (.bits (joinBlocks a)) s :=
  whenReady_ready s c _ hs

theorem exec_xor_equalLengths {a b : Bits} (hs : s.engine = .ready c) (hl : a.length = b.length) :
    exec (.xor a b) s = answerOk (.bits (xorBits a b)) s :=
  (whenReady_ready s c _ hs).trans (if_pos hl)

theorem exec_xor_unequalLengths {a b : Bits} (hs : s.engine = .ready c)
    (hl : a.length ≠ b.length) : exec (.xor a b) s = answerErr .lengthMismatch s :=
  (whenReady_ready s c _ hs).trans (if_neg hl)

end Sys2Proof.Machine

end

section
/-!
The results of the codec commands, entry by entry: the chunks of `B2S` and `SPLIT` (R111, R125), the
pieces of `S2B` and `T2B` (R113, R115), the characters of `B2T` (R117), the marker and zeros of `PAD`
(R121).
-/

namespace Sys2Proof.Machine

theorem splitIntoBlocks_getElem? (a : Bits) (k j : Nat) (hj : j < chunkCount a.length k) :
    (splitIntoBlocks a k)[j]? = some (subBits (zeroFill a k) (j * k) k) := by
  simp [splitIntoBlocks, hj]

/-- `B2S` is the integer view of `SPLIT`. -/
theorem bitsToSymbols_eq_map_val (a : Bits) (k : Nat) :
    bitsToSymbols a k = (splitIntoBlocks a k).map val := by
  simp [bitsToSymbols, splitIntoBlocks, symAt, Function.comp_def]

theorem bitsToSymbols_getElem? (a : Bits) (k j : Nat) (hj : j < chunkCount a.length k) :
    (bitsToSymbols a k)[j]? = some (val (subBits (zeroFill a k) (j * k) k)) := by
  rw [bitsToSymbols_eq_map_val, List.getElem?_map, splitIntoBlocks_getElem? a k j hj, Option.map_some]

/-- Piece `j` of `S2B` reads as symbol `j`. -/
theorem val_subBits_symbolsToBits {a : Syms} {k j x : Nat} (ha : ∀ y ∈ a, y < 2 ^ k)
    (hj : a[j]? = some x) : val (subBits (symbolsToBits a k) (j * k) k) = x := by
  rw [symbolsToBits, subBits_flatMap (bitsOf k) k a (fun y _ => bitsOf_length k y) j x hj, val_bitsOf,
    Nat.mod_eq_of_lt (ha x (List.mem_of_getElem? hj))]

/-- `T2B` is `S2B` at the character width (R115). -/
theorem textToBits_eq_symbolsToBits (a : Text) : textToBits a = symbolsToBits a 8 := rfl

/-- A slice of the first `p` bits that ends within them is a slice of the whole string. -/
theorem subBits_prefix (a : Bits) (p i k : Nat) (h : i + k ≤ p) :
    subBits (subBits a 0 p) i k = subBits a i k := by
  simp [subBits, List.drop_take, List.take_take, Nat.min_eq_left (show k ≤ p - i by omega)]

/-- Character `j` of the characters before position `p`. -/
theorem charsBefore_getElem? (a : Bits) (p j : Nat) (hj : j < p / 8) :
    ((List.range (p / 8)).map fun t => symAt 8 (subBits a 0 p) t)[j]? =
      some (val (subBits a (8 * j) 8)) := by
  have hin : j * 8 + 8 ≤ p := by omega
  rw [List.getElem?_map, List.getElem?_range hj, Option.map_some, symAt, subBits_prefix a p _ _ hin,
    Nat.mul_comm]

/-- `PAD` reaches a multiple of the width (R121). -/
theorem dvd_add_padZeros (len : Nat) {k : Nat} (hk : 0 < k) : k ∣ len + 1 + padZeros len k := by
  obtain ⟨j, hj, -⟩ := padForBlocks_length (zeros len) k hk
  simp only [padForBlocks, List.length_append, List.length_cons, zeros_length] at hj
  exact ⟨j, by rw [Nat.mul_comm, ← hj]; omega⟩

end Sys2Proof.Machine

open Sys2Proof Sys2Proof.Machine

/-- Settles O22: the symbols are the values of the chunks of the zero-filled operand. -/
theorem b2sRule : Obligations.B2sRule := by
  intro a k s
  refine ⟨raises_of_notReady rfl, fun c hs => ⟨raises_of_zeroWidth rfl hs, fun hk => ?_⟩⟩
  obtain ⟨t, ht, hdone, hdata⟩ := completed_of_complete (exec_b2s a hs hk)
  obtain ⟨hlow, hhigh⟩ := chunkCount_bounds a.length k hk
  refine ⟨t, bitsToSymbols a k, ht, hdone, hdata, ?_⟩
  rw [bitsToSymbols_length]
  exact ⟨hlow, hhigh, bitsToSymbols_getElem? a k⟩

/-- Settles O23: the range check decides, and a symbol that fits is read back from its piece. -/
theorem s2bRule : Obligations.S2bRule := by
  intro a k s
  refine ⟨raises_of_notReady rfl, fun c hs => ⟨raises_of_zeroWidth rfl hs,
    fun hk ha => raises_of_answerErr _ s _ (exec_s2b_outOfRange hs hk ha), fun hk ha => ?_⟩⟩
  obtain ⟨t, ht, hdone, hdata⟩ := completed_of_complete (exec_s2b_inRange hs hk ha)
  exact ⟨t, symbolsToBits a k, ht, hdone, hdata,
    (symbolsToBits_length a k).trans (Nat.mul_comm _ _), fun j x => val_subBits_symbolsToBits ha⟩

/-- Settles O24: `T2B` is `S2B` at width 8, with its own range check. -/
theorem t2bRule : Obligations.T2bRule := by
  intro a s
  refine ⟨raises_of_notReady rfl, fun c hs =>
    ⟨fun ha => raises_of_answerErr _ s _ (exec_t2b_wide hs ha), fun ha => ?_⟩⟩
  obtain ⟨t, ht, hdone, hdata⟩ := completed_of_complete (exec_t2b_bytes hs ha)
  refine ⟨t, textToBits a, ht, hdone, hdata, (textToBits_length a).trans (Nat.mul_comm _ _),
    fun j x hj => ?_⟩
  rw [Nat.mul_comm, textToBits_eq_symbolsToBits]
  exact val_subBits_symbolsToBits (k := 8) ha hj

/-- Settles O25: the position of the last marker decides between the three outcomes of `bitsToText`. -/
theorem b2tRule : Obligations.B2tRule := by
  intro a s
  refine ⟨raises_of_notReady rfl, fun c hs => ⟨fun hnone => ?_, fun p hp hlast =>
    ⟨fun h8 => ?_, fun h8 => ?_⟩⟩⟩
  · have htext := bitsToText_noMarker a (lastMarker_of_none a hnone)
    exact completed_of_complete ((exec_b2t a hs).trans (congrArg (answerText · s) htext))
  · have htext := bitsToText_misaligned a p (lastMarker_of_last a p hp hlast) h8
    exact raises_of_answerErr _ s _ ((exec_b2t a hs).trans (congrArg (answerText · s) htext))
  · have htext := bitsToText_text a p (lastMarker_of_last a p hp hlast) h8
    obtain ⟨t, ht, hdone, hdata⟩ :=
      completed_of_complete (d := false) ((exec_b2t a hs).trans (congrArg (answerText · s) htext))
    exact ⟨t, _, ht, hdone, hdata, by simp, charsBefore_getElem? a p⟩

/-- Settles O26: `padZeros` is the spec's count of zeros, and it reaches a multiple of the width. -/
theorem padRule : Obligations.PadRule := by
  intro a k s
  refine ⟨raises_of_notReady rfl, fun c hs => ⟨raises_of_zeroWidth rfl hs, fun hk => ?_⟩⟩
  obtain ⟨t, ht, hdone, hdata⟩ := completed_of_complete (exec_pad a hs hk)
  exact ⟨t, padZeros a.length k, ht, hdone, hdata, rfl, padZeros_lt a.length k hk,
    dvd_add_padZeros a.length hk⟩

/-- Settles O27: the blocks are the chunks of the zero-filled operand. -/
theorem splitRule : Obligations.SplitRule := by
  intro a k s
  refine ⟨raises_of_notReady rfl, fun c hs => ⟨raises_of_zeroWidth rfl hs, fun hk => ?_⟩⟩
  obtain ⟨t, ht, hdone, hdata⟩ := completed_of_complete (exec_split a hs hk)
  obtain ⟨hlow, hhigh⟩ := chunkCount_bounds a.length k hk
  refine ⟨t, splitIntoBlocks a k, ht, hdone, hdata, ?_⟩
  rw [splitIntoBlocks_length]
  exact ⟨hlow, hhigh, splitIntoBlocks_width a k hk, splitIntoBlocks_getElem? a k⟩

/-- Settles O28: `SPLIT` leaves the core `Ready`, and joining its blocks gives the zero-filled operand. -/
theorem joinRule : Obligations.JoinRule := by
  refine ⟨fun a s => ⟨raises_of_notReady rfl, fun c hs => completed_of_complete (exec_join a hs)⟩,
    fun b k s c hs hk => ?_⟩
  obtain ⟨t, ht, hsplit, -⟩ := completed_of_complete (exec_split b hs hk)
  obtain ⟨u, hu, hjoin, -⟩ := completed_of_complete
    (exec_join (splitIntoBlocks b k) (hsplit.engine.trans hs))
  have hfill := (joinBlocks_split b k hk).trans (zeroFill_eq b k hk)
  exact ⟨t, u, _, ht, hsplit.response, hu, hfill ▸ hjoin.response⟩

/-- Settles O29: the length check decides, and the exclusive-or is position by position. -/
theorem xorRule : Obligations.XorRule := by
  intro a b s
  refine ⟨raises_of_notReady rfl, fun c hs =>
    ⟨fun hl => raises_of_answerErr _ s _ (exec_xor_unequalLengths hs hl), fun hl => ?_⟩⟩
  obtain ⟨t, ht, hdone, hdata⟩ := completed_of_complete (exec_xor_equalLengths hs hl)
  exact ⟨t, xorBits a b, ht, hdone, hdata, by simp [hl], xorBits_getElem? a b⟩

end

section
/-!
How the substitution commands answer (R140, R141): the lifecycle check, the length check, the range check,
then one table entry a symbol.
-/

namespace Sys2Proof.Machine

variable {i : Instr} {s : State} {c : Store} {a : Syms} {run : Store → Answer}

/-! ## The checks of a command on a block of symbols, of either command -/

theorem raises_of_symbolCount (hx : exec i s = whenReady s fun c => whenBlockSyms c a s (run c))
    (hs : s.engine = .ready c) (hl : a.length ≠ c.m) : Raises i s .lengthMismatch :=
  raises_of_answerErr i s _
    ((hx.trans (whenReady_ready s c _ hs)).trans (whenBlockSyms_misfits c a s _ hl))

theorem raises_of_symbolRange (hx : exec i s = whenReady s fun c => whenBlockSyms c a s (run c))
    (hs : s.engine = .ready c) (hl : a.length = c.m) (ha : ∃ x ∈ a, 2 ^ c.n ≤ x) :
    Raises i s .rangeError :=
  raises_of_answerErr i s _
    ((hx.trans (whenReady_ready s c _ hs)).trans (whenBlockSyms_outOfRange c a s _ hl ha))

theorem exec_of_blockSyms (hx : exec i s = whenReady s fun c => whenBlockSyms c a s (run c))
    (hs : s.engine = .ready c) (hl : a.length = c.m) (ha : ∀ x ∈ a, x < 2 ^ c.n) :
    exec i s = run c :=
  (hx.trans (whenReady_ready s c _ hs)).trans (whenBlockSyms_fits c a s _ hl ha)

theorem exec_sub (hs : s.engine = .ready c) (hl : a.length = c.m) (ha : ∀ x ∈ a, x < 2 ^ c.n) :
    exec (.sub a) s = answerOk (.syms (substSyms c a)) s :=
  exec_of_blockSyms (run := fun c => answerOk (.syms (substSyms c a)) s) rfl hs hl ha

theorem exec_isub (hs : s.engine = .ready c) (hl : a.length = c.m) (ha : ∀ x ∈ a, x < 2 ^ c.n) :
    exec (.isub a) s = answerOk (.syms (invSubstSyms c a)) s :=
  exec_of_blockSyms (run := fun c => answerOk (.syms (invSubstSyms c a)) s) rfl hs hl ha

/-! ## Table lookup, symbol by symbol -/

theorem map_tableAt_getElem? {t : List Nat} {j x : Nat} (ha : ∀ y ∈ a, y < t.length)
    (hj : a[j]? = some x) : (a.map (tableAt t))[j]? = t[x]? := by
  rw [List.getElem?_map, hj, Option.map_some, tableAt_eq t x (ha x (List.mem_of_getElem? hj))]

@[simp] theorem substSyms_length : (substSyms c a).length = a.length :=
  List.length_map ..

@[simp] theorem invSubstSyms_length : (invSubstSyms c a).length = a.length :=
  List.length_map ..

theorem substSyms_getElem? {j x : Nat} (hv : c.Valid) (ha : ∀ y ∈ a, y < 2 ^ c.n)
    (hj : a[j]? = some x) : (substSyms c a)[j]? = c.sbox[x]? :=
  map_tableAt_getElem? (hv.sbox_length ▸ ha) hj

theorem invSubstSyms_getElem? {j x : Nat} (hv : c.Valid) (ha : ∀ y ∈ a, y < 2 ^ c.n)
    (hj : a[j]? = some x) : (invSubstSyms c a)[j]? = c.invsbox[x]? :=
  map_tableAt_getElem? (hv.invsbox_length ▸ ha) hj

end Sys2Proof.Machine

open Sys2Proof Sys2Proof.Machine

/-- Settles O32: the checks decide in their order, and symbol `x` is read at entry `x` of the S-box. -/
theorem subRule : Obligations.SubRule := by
  intro a s
  refine ⟨raises_of_notReady rfl, fun c hs hv => ⟨raises_of_symbolCount rfl hs,
    raises_of_symbolRange rfl hs, fun hl ha => ?_⟩⟩
  obtain ⟨t, ht, hdone, hdata⟩ := completed_of_complete (exec_sub hs hl ha)
  exact ⟨t, substSyms c a, ht, hdone, hdata, substSyms_length.trans hl,
    fun j x => substSyms_getElem? hv ha⟩

/-- Settles O33: as `SUB`, with the entries of the inverse S-box. -/
theorem isubRule : Obligations.IsubRule := by
  intro a s
  refine ⟨raises_of_notReady rfl, fun c hs hv => ⟨raises_of_symbolCount rfl hs,
    raises_of_symbolRange rfl hs, fun hl ha => ?_⟩⟩
  obtain ⟨t, ht, hdone, hdata⟩ := completed_of_complete (exec_isub hs hl ha)
  exact ⟨t, invSubstSyms c a, ht, hdone, hdata, invSubstSyms_length.trans hl,
    fun j x => invSubstSyms_getElem? hv ha⟩

end

section
/-!
How the permutation commands answer (R150, R151): the lifecycle check, the width check, then a scatter of
the operand by the table.
-/

namespace Sys2Proof.Machine

variable {i : Instr} {s : State} {c : Store} {a : Bits} {run : Store → Answer}

/-! ## The checks of a single-block command, of any such command -/

theorem raises_of_blockWidth (hx : exec i s = whenReady s fun c => whenBlock c a s (run c))
    (hs : s.engine = .ready c) (hl : a.length ≠ c.width) : Raises i s .lengthMismatch :=
  raises_of_answerErr i s _
    ((hx.trans (whenReady_ready s c _ hs)).trans (whenBlock_misfits c a s _ hl))

theorem exec_of_block (hx : exec i s = whenReady s fun c => whenBlock c a s (run c))
    (hs : s.engine = .ready c) (hl : a.length = c.width) : exec i s = run c :=
  (hx.trans (whenReady_ready s c _ hs)).trans (whenBlock_fits c a s _ hl)

theorem exec_prm (hs : s.engine = .ready c) (hl : a.length = c.width) :
    exec (.prm a) s = answerOk (.bits (permute c a)) s :=
  exec_of_block (run := fun c => answerOk (.bits (permute c a)) s) rfl hs hl

theorem exec_iprm (hs : s.engine = .ready c) (hl : a.length = c.width) :
    exec (.iprm a) s = answerOk (.bits (invPermute c a)) s :=
  exec_of_block (run := fun c => answerOk (.bits (invPermute c a)) s) rfl hs hl

/-! ## Scatter, bit by bit -/

/-- `scatter_getElem?` with the table's entry read by `[j]?`, so with no bound on `j` to show. -/
theorem scatter_getElem?_of_entry {α : Type} (d : α) {t : List Nat} {xs : List α} {size j p : Nat}
    (hb : isBijection t size = true) (hx : xs.length = size) (hj : t[j]? = some p) :
    (scatter d t xs)[p]? = xs[j]? := by
  obtain ⟨hl, -, -⟩ := (isBijection_iff t size).mp hb
  have hlt : j < t.length := (List.getElem?_eq_some_iff.mp hj).1
  have hp : tableAt t j = p := Option.some.inj ((tableAt_eq t j hlt).symm.trans hj)
  rw [← hp]
  exact scatter_getElem? d t xs size j hb hx (hl ▸ hlt)

theorem permute_getElem? {j p : Nat} (hv : c.Valid) (hl : a.length = c.width)
    (hj : c.perm[j]? = some p) : (permute c a)[p]? = a[j]? :=
  scatter_getElem?_of_entry false hv.perm_bijection hl hj

theorem invPermute_getElem? {j p : Nat} (hv : c.Valid) (hl : a.length = c.width)
    (hj : c.invperm[j]? = some p) : (invPermute c a)[p]? = a[j]? :=
  scatter_getElem?_of_entry false hv.invperm_bijection hl hj

end Sys2Proof.Machine

open Sys2Proof Sys2Proof.Machine

/-- Settles O35: the width check decides, and bit `i` is scattered to position `PERM[i]`. -/
theorem prmRule : Obligations.PrmRule := by
  intro a s
  refine ⟨raises_of_notReady rfl, fun c hs hv => ⟨raises_of_blockWidth rfl hs, fun hl => ?_⟩⟩
  obtain ⟨t, ht, hdone, hdata⟩ := completed_of_complete (exec_prm hs hl)
  exact ⟨t, permute c a, ht, hdone, hdata, permute_length a hv, fun j p => permute_getElem? hv hl⟩

/-- Settles O36: as `PRM`, with the positions of the inverse table, which is a bijection as well. -/
theorem iprmRule : Obligations.IprmRule := by
  intro a s
  refine ⟨raises_of_notReady rfl, fun c hs hv => ⟨raises_of_blockWidth rfl hs, fun hl => ?_⟩⟩
  obtain ⟨t, ht, hdone, hdata⟩ := completed_of_complete (exec_iprm hs hl)
  exact ⟨t, invPermute c a, ht, hdone, hdata, invPermute_length a hv,
    fun j p => invPermute_getElem? hv hl⟩

end

section
/-!
How `KGEN` answers (R161, R162): the lifecycle check, the length check on the key, then the key schedule of
the operand; and why the schedule of the configured key is the round-key store (R27, R28).
-/

namespace Sys2Proof.Machine

variable {s : State} {c : Store} {a : Bits}

theorem exec_kgen_shortKey (hs : s.engine = .ready c) (hl : a.length < c.n * (c.m + c.r)) :
    exec (.kgen a) s = answerErr .configurationError s :=
  (whenReady_ready s c _ hs).trans (if_pos hl)

theorem exec_kgen (hs : s.engine = .ready c) (hl : c.n * (c.m + c.r) ≤ a.length) :
    exec (.kgen a) s = answerOk (.blocks (keySchedule c.n c.m c.r a)) s :=
  (whenReady_ready s c _ hs).trans (if_neg (Nat.not_lt.mpr hl))

/-! ## The key schedule, key by key -/

@[simp] theorem keySchedule_length (n m r : Nat) (key : Bits) :
    (keySchedule n m r key).length = r + 1 := by
  simp [keySchedule]

theorem keySchedule_getElem? (n m r : Nat) (key : Bits) {i : Nat} (hi : i ≤ r) :
    (keySchedule n m r key)[i]? = some (roundKey n m key i) := by
  simp [keySchedule, Nat.lt_succ_of_le hi]

@[simp] theorem keySymbols_length (n m r : Nat) (key : Bits) :
    (keySymbols n m r key).length = m + r := by
  simp [keySymbols]

theorem keySymbols_getElem? (n m r : Nat) (key : Bits) {j : Nat} (hj : j < m + r) :
    (keySymbols n m r key)[j]? = some (symAt n key j) := by
  simp [keySymbols, hj]

/-- Key bits whose symbols are the stored ones have the stored key as their key symbols. -/
theorem Store.Valid.key_eq_keySymbols (hv : c.Valid)
    (hkey : ∀ j < c.m + c.r, c.key[j]? = some (symAt c.n a j)) :
    c.key = keySymbols c.n c.m c.r a := by
  refine List.ext_getElem? fun j => ?_
  by_cases hj : j < c.m + c.r
  · rw [hkey j hj, keySymbols_getElem? _ _ _ a hj]
  · have hout : c.m + c.r ≤ j := Nat.not_lt.mp hj
    rw [List.getElem?_eq_none (hv.key_length.trans_le hout),
      List.getElem?_eq_none ((keySymbols_length _ _ _ a).trans_le hout)]

/-- The schedule of the configured key is the round-key store: a window of key bits and the window of
key symbols at the same place are the same block. -/
theorem Store.Valid.keySchedule_eq_rk (hv : c.Valid) (hl : c.n * (c.m + c.r) ≤ a.length)
    (hkey : c.key = keySymbols c.n c.m c.r a) : keySchedule c.n c.m c.r a = c.rk := by
  refine List.ext_getElem? fun i => ?_
  by_cases hi : i ≤ c.r
  · rw [keySchedule_getElem? _ _ _ a hi, hv.rk_window i hi, hkey,
      symbolsToBits_keySymbols _ _ _ a i hi hl]
  · have hout : c.r + 1 ≤ i := Nat.not_le.mp hi
    rw [List.getElem?_eq_none ((keySchedule_length _ _ _ a).trans_le hout),
      List.getElem?_eq_none (hv.rk_length.trans_le hout)]

end Sys2Proof.Machine

open Sys2Proof Sys2Proof.Machine

/-- Settles O38: the length check decides, round key `i` is window `i` of the operand, and the windows of
the configured key are the stored round keys. -/
theorem kgenRule : Obligations.KgenRule := by
  intro a s
  refine ⟨raises_of_notReady rfl, fun c hs =>
    ⟨fun hl => raises_of_answerErr _ s _ (exec_kgen_shortKey hs hl), fun hl => ?_⟩⟩
  obtain ⟨t, ht, hdone, hdata⟩ := completed_of_complete (exec_kgen hs hl)
  exact ⟨t, keySchedule c.n c.m c.r a, ht, hdone, hdata, keySchedule_length _ _ _ a,
    fun i => keySchedule_getElem? _ _ _ a,
    fun hv hkey => hv.keySchedule_eq_rk hl (hv.key_eq_keySymbols hkey)⟩

end

section
/-!
How `CTRX`, `CTRE` and `MENC` answer (R193, R196, R203): the first counter (R191), the checks in their
order, the blocks of a padded text, and a completion after a CTR pass with the registers the pass leaves.
-/

namespace Sys2Proof.Machine

variable {i : Instr} {s : State} {c : Store} {v : Bits} {p : Blocks} {a : Text}

/-- The first payload block uses the IV itself as its counter (R191). -/
theorem counter_one (v : Bits) : counter v.length v 1 = v := by
  rw [counter, Nat.sub_self, Nat.add_zero, Nat.mod_eq_of_lt (val_lt v), bitsOf_val]

/-! ## Padded strings -/

/-- The blocks of a padded string, put together, are the string: padding leaves `SPLIT` nothing to fill. -/
theorem joinBlocks_split_padded (b : Bits) {k : Nat} (hk : 0 < k) :
    joinBlocks (splitIntoBlocks (padForBlocks b k) k) = padForBlocks b k := by
  obtain ⟨j, hj, -⟩ := padForBlocks_length b k hk
  exact (joinBlocks_split _ k hk).trans (zeroFill_multiple _ j k hk hj)

theorem padForBlocks_length_eq_split (b : Bits) {k : Nat} (hk : 0 < k) :
    (padForBlocks b k).length = (splitIntoBlocks (padForBlocks b k) k).length * k := by
  obtain ⟨j, hj, -⟩ := padForBlocks_length b k hk
  rw [splitIntoBlocks_length, hj, chunkCount_mul j k hk]

/-! ## The checks and the completion of each command in `Ready` -/

theorem not_allOfWidth {w : Nat} (h : ∃ b ∈ p, b.length ≠ w) : ¬ allOfWidth w p = true := by
  simpa [allOfWidth_iff] using h

theorem exec_ctrx_empty (hs : s.engine = .ready c) :
    exec (.ctrx []) s = answerErr .lengthMismatch s :=
  (whenReady_ready s c _ hs).trans (if_pos rfl)

theorem exec_ctrx_badWidth (hs : s.engine = .ready c) (hbad : ∃ b ∈ p, b.length ≠ c.width) :
    exec (.ctrx p) s = answerErr .lengthMismatch s := by
  have ⟨_, hb, _⟩ := hbad
  exact ((whenReady_ready s c _ hs).trans (if_neg (List.length_pos_of_mem hb).ne')).trans
    (if_neg (not_allOfWidth hbad))

theorem exec_ctrx (hs : s.engine = .ready c) (hv : c.Valid)
    (hw : ∀ b ∈ v :: p, b.length = c.width) :
    exec (.ctrx (v :: p)) s =
      answerOk (.blocks (ctrTransform c v p)) (ctrRun c (v :: p) [] s).2 := by
  have hx : exec (.ctrx (v :: p)) s =
      answerOk (.blocks (ctrRun c (v :: p) [] s).1) (ctrRun c (v :: p) [] s).2 :=
    ((whenReady_ready s c _ hs).trans (if_neg (Nat.succ_ne_zero p.length))).trans
      (if_pos ((allOfWidth_iff _ _).mpr hw))
  rw [hx, ctrRun_output v p [] s hv, List.nil_append]

theorem exec_ctre_badWidth (hs : s.engine = .ready c)
    (hbad : ∃ b ∈ v :: p, b.length ≠ c.width) :
    exec (.ctre v p) s = answerErr .lengthMismatch s := by
  by_cases hiv : v.length = c.width
  · have hp := ((List.exists_mem_cons_iff _ _ _).mp hbad).resolve_left (not_not_intro hiv)
    exact ((whenReady_ready s c _ hs).trans (if_neg (not_not_intro hiv))).trans
      (if_neg (not_allOfWidth hp))
  · exact (whenReady_ready s c _ hs).trans (if_pos hiv)

theorem exec_ctre (hs : s.engine = .ready c) (hv : c.Valid)
    (hw : ∀ b ∈ v :: p, b.length = c.width) :
    exec (.ctre v p) s =
      answerOk (.blocks (v :: ctrTransform c v p)) (ctrRun c (v :: p) [v] s).2 := by
  obtain ⟨hiv, hp⟩ := List.forall_mem_cons.mp hw
  have hx : exec (.ctre v p) s =
      answerOk (.blocks (ctrRun c (v :: p) [v] s).1) (ctrRun c (v :: p) [v] s).2 :=
    ((whenReady_ready s c _ hs).trans (if_neg (not_not_intro hiv))).trans
      (if_pos ((allOfWidth_iff _ _).mpr hp))
  rw [hx, ctrRun_output v p [v] s hv, List.singleton_append]

theorem exec_menc_badIv (hs : s.engine = .ready c) (hiv : v.length ≠ c.width) :
    exec (.menc a v) s = answerErr .lengthMismatch s :=
  (whenReady_ready s c _ hs).trans (if_pos hiv)

theorem exec_menc_wide (hs : s.engine = .ready c) (hiv : v.length = c.width)
    (ha : ∃ x ∈ a, 256 ≤ x) : exec (.menc a v) s = answerErr .rangeError s := by
  have hbad : ¬ isByteText a = true := by simpa [isByteText_iff] using ha
  exact ((whenReady_ready s c _ hs).trans (if_neg (not_not_intro hiv))).trans (if_neg hbad)

theorem exec_menc (hs : s.engine = .ready c) (hv : c.Valid) (hiv : v.length = c.width)
    (ha : ∀ x ∈ a, x < 256) (hp : p = splitIntoBlocks (padForBlocks (textToBits a) c.width) c.width) :
    exec (.menc a v) s =
      answerOk (.bits (v ++ xorBits (padForBlocks (textToBits a) c.width) (keystream c v p.length)))
        (ctrRun c (v :: p) [v] s).2 := by
  have hx : exec (.menc a v) s =
      answerOk (.bits (joinBlocks (ctrRun c (v :: p) [v] s).1)) (ctrRun c (v :: p) [v] s).2 := by
    subst hp
    exact ((whenReady_ready s c _ hs).trans (if_neg (not_not_intro hiv))).trans
      (if_pos ((isByteText_iff a).mpr ha))
  have hw : ∀ b ∈ p, b.length = c.width := hp ▸ splitIntoBlocks_width _ _ hv.width_pos
  have hjoin : p.flatten = padForBlocks (textToBits a) c.width :=
    hp ▸ joinBlocks_split_padded (textToBits a) hv.width_pos
  rw [hx, joinBlocks_ctrRun v p [v] s hv hw, hjoin, joinBlocks, List.flatten_singleton]

/-! ## The state after a CTR pass -/

/-- A result given after a CTR pass reports completion, and the registers are as the pass leaves them. -/
theorem completed_of_ctrRun {stream out : Blocks} {q : Result} {d : Bool} (hv : c.Valid)
    (hx : exec i s = .next (complete d (some q) (ctrRun c stream out s).2)) :
    ∃ t, exec i s = .next t ∧ Completed s t q d ∧
      CtrRegisters c s t (memRead stream 0) (stream.length - 1) := by
  obtain ⟨hengine, -, -, hseen, hdseen, hpending, -⟩ := ctrRun_frame c stream out s hv.r_pos
  obtain ⟨hiv, hidx, hpayload, hnone⟩ := ctrRun_registers c stream out s hv.r_pos
  exact ⟨_, hx, ⟨rfl, rfl, rfl, congrArg (· || d) hdseen, hseen, hengine, hpending⟩,
    ⟨hiv, hidx, hpayload, hnone⟩⟩

theorem ctrTransform_getElem? {j : Nat} {x : Bits} (hx : p[j]? = some x) :
    (ctrTransform c v p)[j]? = some (xorBits x (encBlock c (counter c.width v (j + 1)))) := by
  simp [ctrTransform, hx]

end Sys2Proof.Machine

open Sys2Proof Sys2Proof.Machine

/-- Settles O44: the counter is `bits_W` of the reduced sum, and for the first block the sum is the IV. -/
theorem counterIsModular : Obligations.CounterIsModular := by
  rintro w v i - rfl
  exact ⟨counter_length _ v i, val_counter _ v i, counter_one v⟩

/-- Settles O45: the checks decide, and a pass over `v :: p` computes the CTR transform. -/
theorem ctrxRule : Obligations.CtrxRule := by
  refine fun s => ⟨fun a => raises_of_notReady rfl, fun c hs hv =>
    ⟨raises_of_answerErr _ s _ (exec_ctrx_empty hs),
      fun a hbad => raises_of_answerErr _ s _ (exec_ctrx_badWidth hs hbad), fun v p hw => ?_⟩⟩
  obtain ⟨t, ht, hdone, hregs⟩ := completed_of_ctrRun hv (exec_ctrx hs hv hw)
  exact ⟨t, ctrTransform c v p, ht, hdone, ctrTransform_length v p,
    fun j x => ctrTransform_getElem?, hregs⟩

/-- Settles O46: as `CTRX`, with the IV written in front of the transformed payload. -/
theorem ctreRule : Obligations.CtreRule := by
  refine fun v p s => ⟨raises_of_notReady rfl, fun c hs hv =>
    ⟨fun hbad => raises_of_answerErr _ s _ (exec_ctre_badWidth hs hbad), fun hw => ?_⟩⟩
  obtain ⟨t, ht, hdone, hregs⟩ := completed_of_ctrRun hv (exec_ctre hs hv hw)
  exact ⟨t, v :: ctrTransform c v p, ht, hdone, congrArg (· + 1) (ctrTransform_length v p), rfl,
    fun j x => ctrTransform_getElem?, hregs⟩

/-- Settles O47: the checks decide in their order; the padded text bits are a whole number of blocks, so
the joined output is the IV and the padded bits mixed with that many blocks of keystream. -/
theorem mencRule : Obligations.MencRule := by
  refine fun a v s => ⟨raises_of_notReady rfl, fun c hs hv =>
    ⟨fun hiv => raises_of_answerErr _ s _ (exec_menc_badIv hs hiv),
      fun hiv ha => raises_of_answerErr _ s _ (exec_menc_wide hs hiv ha), fun hiv ha => ?_⟩⟩
  obtain ⟨t, ht, hdone, hregs⟩ := completed_of_ctrRun hv (exec_menc hs hv hiv ha rfl)
  have hlen := padForBlocks_length_eq_split (textToBits a) hv.width_pos
  refine ⟨t, padZeros (textToBits a).length c.width, _, ht, hdone,
    padZeros_lt _ _ hv.width_pos, ?_, hregs⟩
  rw [← hlen]
  simp only [padForBlocks, List.length_append, List.length_cons, zeros_length, textToBits_length]
  omega

end

section
/-!
How `CFG` answers in `Unconfigured` (R210, R213), what a successful one writes into the configuration store
(R27 to R32), and that `STAT` writes the response port only (R215).
-/

namespace Sys2Proof.Machine

variable {n m r : Nat} {sbox perm : Syms} {key : Bits} {s : State}

theorem exec_cfg_refused (hs : s.engine = .unconfigured) (h : ¬CfgAccepts n m r sbox perm key) :
    exec (.cfg n m r sbox perm key) s = .next (raiseFatal s) :=
  (execCfg_unconfigured n m r sbox perm key s hs).trans
    (if_neg fun hv => h ((cfgAccepts_iff n m r sbox perm key).mpr hv))

theorem exec_cfg_accepted (hs : s.engine = .unconfigured) (h : CfgAccepts n m r sbox perm key) :
    exec (.cfg n m r sbox perm key) s =
      .next (complete false none { s with engine := .ready (storeOf n m r sbox perm key) }) :=
  (execCfg_unconfigured n m r sbox perm key s hs).trans
    (if_pos ((cfgAccepts_iff n m r sbox perm key).mp h))

/-! ## The tables of accepted operands are bijections (R211 items 2 and 3) -/

theorem CfgAccepts.sbox_bijection (h : CfgAccepts n m r sbox perm key) :
    isBijection sbox (2 ^ n) = true :=
  (isBijection_iff sbox (2 ^ n)).mpr ⟨h.sbox_length, h.sbox_range, h.sbox_distinct⟩

theorem CfgAccepts.perm_bijection (h : CfgAccepts n m r sbox perm key) :
    isBijection perm (n * m) = true :=
  (isBijection_iff perm (n * m)).mpr ⟨h.perm_length, h.perm_range, h.perm_distinct⟩

end Sys2Proof.Machine

open Sys2Proof Sys2Proof.Machine

/-- Settles O19: the lifecycle check and the check of the operands choose among three answers, and the store
of the accepted one is read off register by register. -/
theorem cfgRule : Obligations.CfgRule := by
  intro n m r sbox perm key s
  refine ⟨fun hs => ?_, fun hs h => ?_, fun hs h => ?_⟩
  · exact raises_of_answerErr _ s _ (execCfg_configured n m r sbox perm key s hs)
  · exact ⟨_, exec_cfg_refused hs h, raiseFatal_reported s, rfl, rfl, rfl, rfl, rfl⟩
  · have hinvsbox : (invertTable sbox).length = 2 ^ n := (invertTable_length sbox).trans h.sbox_length
    have hinvperm : (invertTable perm).length = n * m := (invertTable_length perm).trans h.perm_length
    exact ⟨_, storeOf n m r sbox perm key, exec_cfg_accepted hs h, rfl, rfl, rfl, rfl, rfl, rfl,
      hinvsbox, fun x y => invertTable_getElem? sbox _ x y h.sbox_bijection,
      hinvperm, fun i j => invertTable_getElem? perm _ i j h.perm_bijection,
      keySymbols_length n m r key, fun _ => keySymbols_getElem? n m r key,
      keySchedule_length n m r key, fun _ => keySchedule_getElem? n m r key,
      rfl, rfl, rfl, Bool.or_false s.dseen, rfl,
      ⟨rfl, rfl, rfl, rfl, rfl, rfl⟩, rfl⟩

/-- Settles O20: the answer differs from the state in the response port only. -/
theorem statRule : Obligations.StatRule :=
  fun _ => ⟨_, rfl, rfl, rfl⟩

end

section
/-!
What an error leaves behind (R228): the records and the response of the raise, whatever the datapath stage
before it wrote, and `LIFE` only when `CFG` refuses its operands.
-/

namespace Sys2Proof.Machine

/-- Everything `exec i s = .next t` with `ERR = e` can mean. -/
inductive RaiseCase (i : Instr) (s t : State) (e : ErrClass) : Prop where
  /-- Raised after a datapath stage, which is empty (`u = s`) but for the late error of `MDEC` (R229). -/
  | recoverable (u : State) (hu : DatapathOnly s u) (ht : t = raiseErr e u)
      (he : (∃ n m r sbox perm key, i = .cfg n m r sbox perm key) → e ≠ .configurationError)
  /-- `CFG` refuses its operands (R213). -/
  | fatal (n m r : Nat) (sbox perm : Syms) (key : Bits) (hi : i = .cfg n m r sbox perm key)
      (he : e = .configurationError) (ht : t = raiseFatal s)

/-- Everything a command that ends in an error can do; a completed one has `ERR = 0` (R24). -/
theorem exec_raise_cases {i : Instr} {s t : State} {e : ErrClass} (hi : i ≠ .stat)
    (h : exec i s = .next t) (he : t.err = some e) : RaiseCase i s t e := by
  cases exec_cases i s t h with
  | stat hstat _ => exact absurd hstat hi
  | raised e' _ ht hcfg =>
    subst ht
    obtain rfl : e' = e := Option.some.inj he
    refine .recoverable s (.refl s) rfl fun hc => ?_
    rw [hcfg hc]
    decide
  | late a _ u hmdec _ hu ht =>
    subst ht
    obtain rfl : .lengthMismatch = e := Option.some.inj he
    exact .recoverable u hu.only rfl fun _ => by decide
  | fatal n m r sbox perm key hcfg _ ht =>
    subst ht
    exact .fatal n m r sbox perm key hcfg (Option.some.inj he).symm rfl
  | built _ _ _ _ _ _ _ _ _ ht | done _ _ _ _ _ _ _ ht _ =>
    subst ht
    cases he

/-- An error raised after a datapath stage reports as one raised at once. -/
theorem DatapathOnly.raiseErr_reported {s u : State} (hu : DatapathOnly s u) (e : ErrClass) :
    Reported s (raiseErr e u) e := by
  unfold DatapathOnly at hu
  rw [hu]
  exact ⟨rfl, rfl, rfl, rfl, rfl, rfl, rfl, rfl⟩

/-- Only the defined opcodes are decoded to a command (R90). -/
theorem op_mem_definedOpcodes_of_decode {c : Command} {i : Instr} (h : decode c = .instr i) :
    c.op ∈ definedOpcodes := by
  unfold decode at h
  split at h
  case h_22 => cases h
  all_goals
    rename_i hop
    rw [hop]
    decide

/-- A step on an undefined opcode raises IllegalCommand at the state without the command (R91 (a)). -/
theorem step_undefinedOpcode {s t : State} {c : Command} {rest : List HostEvent}
    (hp : s.pending = .command c :: rest) (hop : c.op ∉ definedOpcodes) (h : step s = .next t) :
    t = raiseErr .illegalCommand { s with pending := rest } := by
  cases step_cases s t h with
  | waited hp' _ => cases hp.symm.trans hp'
  | wasReset _ hp' _ =>
    rcases hp' with hp' | ⟨_, hp'⟩ <;> cases hp.symm.trans hp'
  | rejected _ _ _ hp' _ ht =>
    cases hp.symm.trans hp'
    exact ht
  | ran _ _ _ hp' hc _ =>
    cases hp.symm.trans hp'
    exact absurd (op_mem_definedOpcodes_of_decode hc) hop

end Sys2Proof.Machine

open Sys2Proof Sys2Proof.Machine

/-- Settles O13: a command that ends in an error raised it by `raiseErr`, or by `raiseFatal` for the operands
`CFG` refuses; an undefined opcode is raised by the fetch. -/
theorem raiseDoesWhatR228Says : Obligations.RaiseDoesWhatR228Says := by
  refine ⟨fun i s t e hi h he => ?_, fun s t c rest hp hop h => ?_⟩
  · cases exec_raise_cases hi h he with
    | recoverable u hu ht hcfg =>
      subst ht
      exact ⟨hu.raiseErr_reported e, fun hconf hc => absurd hconf (hcfg hc), fun _ => hu.engine_eq⟩
    | fatal n m r sbox perm key hcfg hconf ht =>
      subst ht hconf
      exact ⟨raiseFatal_reported s, fun _ _ => rfl,
        fun hnot => absurd ⟨rfl, n, m, r, sbox, perm, key, hcfg⟩ hnot⟩
  · rw [step_undefinedOpcode hp hop h]
    exact ⟨raiseErr_reported _ _, rfl⟩

end

section
/-!
The decoder and the encoder agree (R89, R90, R91 (a)), and the first act of a step for each form of the next
event (R88, R250, R251).
-/

namespace Sys2Proof.Machine

/-- The per-instruction family `RoundTrip`, for every command. -/
theorem roundTrip_statement (i : Instr) : Laws.RoundTrip.Statement i := by
  cases i with
  | cfg n m r sbox perm key => exact Laws.RoundTrip.cfg n m r sbox perm key
  | stat => exact Laws.RoundTrip.stat
  | b2s a k => exact Laws.RoundTrip.b2s a k
  | s2b a k => exact Laws.RoundTrip.s2b a k
  | t2b a => exact Laws.RoundTrip.t2b a
  | b2t a => exact Laws.RoundTrip.b2t a
  | pad a k => exact Laws.RoundTrip.pad a k
  | split a k => exact Laws.RoundTrip.split a k
  | join a => exact Laws.RoundTrip.join a
  | xor a b => exact Laws.RoundTrip.xor a b
  | sub a => exact Laws.RoundTrip.sub a
  | isub a => exact Laws.RoundTrip.isub a
  | prm a => exact Laws.RoundTrip.prm a
  | iprm a => exact Laws.RoundTrip.iprm a
  | kgen a => exact Laws.RoundTrip.kgen a
  | enc a => exact Laws.RoundTrip.enc a
  | dec a => exact Laws.RoundTrip.dec a
  | ctrx a => exact Laws.RoundTrip.ctrx a
  | ctre b a => exact Laws.RoundTrip.ctre b a
  | menc a b => exact Laws.RoundTrip.menc a b
  | mdec a => exact Laws.RoundTrip.mdec a

/-- A decoded command has the opcode that the encoder gives it (R90). -/
theorem encode_op_of_decode {c : Command} {i : Instr} (h : decode c = .instr i) :
    (encode i).op = c.op := by
  unfold decode at h
  split at h
  case h_22 => cases h
  all_goals
    rename_i hop
    cases h
    exact hop.symm

/-- The decoder rejects an opcode by the name of that opcode (R91 (a)). -/
theorem decode_undefinedOpcode_op {c : Command} {op : Opcode} (h : decode c = .undefinedOpcode op) :
    op = c.op := by
  unfold decode at h
  split at h
  case h_22 => exact (Decoded.undefinedOpcode.inj h).symm
  all_goals cases h

/-- Each of the 21 opcodes decodes, whatever the ports hold (R90). -/
theorem decode_of_mem_definedOpcodes {c : Command} (h : c.op ∈ definedOpcodes) :
    ∃ i, decode c = .instr i := by
  obtain ⟨op, ports⟩ := c
  simp only [definedOpcodes, List.mem_cons, List.not_mem_nil, or_false] at h
  rcases h with rfl | rfl | rfl | rfl | rfl | rfl | rfl | rfl | rfl | rfl | rfl | rfl | rfl | rfl |
    rfl | rfl | rfl | rfl | rfl | rfl | rfl
  all_goals exact ⟨_, rfl⟩

/-- Rejected are exactly the opcodes that R90 does not list. -/
theorem not_mem_definedOpcodes_iff (c : Command) :
    c.op ∉ definedOpcodes ↔ decode c = .undefinedOpcode c.op := by
  constructor
  · intro hop
    cases hc : decode c with
    | instr i => exact absurd (op_mem_definedOpcodes_of_decode hc) hop
    | undefinedOpcode op => rw [decode_undefinedOpcode_op hc]
  · intro hc hop
    obtain ⟨i, hi⟩ := decode_of_mem_definedOpcodes hop
    cases hc.symm.trans hi

/-! ## The step, by the next event -/

variable {s : State} {rest : List HostEvent}

theorem step_of_decode {c : Command} {i : Instr} (hp : s.pending = .command c :: rest)
    (hc : decode c = .instr i) : step s = exec i { s with pending := rest } := by
  simp only [step, fetch, hp, hc]

theorem step_of_undefinedOpcode {c : Command} {op : Opcode} (hp : s.pending = .command c :: rest)
    (hc : decode c = .undefinedOpcode op) :
    step s = .next (raiseErr .illegalCommand { s with pending := rest }) := by
  simp only [step, fetch, hp, hc]

theorem step_of_reset (hp : s.pending = .reset :: rest ∨ ∃ c, s.pending = .cutShort c :: rest) :
    step s = .next (resetTo rest) := by
  rcases hp with hp | ⟨c, hp⟩
  · simp only [step, fetch, hp]
  · simp only [step, fetch, hp]

theorem step_of_noEvent (hp : s.pending = []) : step s = .next s := by
  simp only [step, fetch, hp]

/-- After a reset the whole of `STATUS` is 0 (R44); the events still to come are no part of it. -/
theorem statusWord_resetTo (rest : List HostEvent) : statusWord (resetTo rest) = 0 :=
  show statusWord State.reset = 0 by decide

end Sys2Proof.Machine

open Sys2Proof Sys2Proof.Machine

/-- Settles O1: the round trip holds command by command, and the decoder's branches are the 21 opcodes of
R90 and the rejection of every other one. -/
theorem decodeAndEncodeAgree : Obligations.DecodeAndEncodeAgree :=
  ⟨fun i => (roundTrip_statement i).1, fun _ _ => encode_op_of_decode,
    fun i => (roundTrip_statement i).2, not_mem_definedOpcodes_iff⟩

/-- Settles O2: each row evaluates by the decoder's match on the eight bits. -/
theorem opcodeBytesDecode : Obligations.OpcodeBytesDecode :=
  ⟨rfl, rfl, rfl, rfl, rfl, rfl, rfl, rfl, rfl, rfl⟩

/-- Settles O3: the fetch takes the command off the list and hands it to `exec`. -/
theorem stepRunsDecodedCommand : Obligations.StepRunsDecodedCommand :=
  fun _ _ _ _ => step_of_decode

/-- Settles O4: an opcode off the list is rejected by the decoder, and the fetch raises IllegalCommand. -/
theorem undefinedOpcodeIsIllegal : Obligations.UndefinedOpcodeIsIllegal := by
  intro s c rest hp hop
  have hc := (not_mem_definedOpcodes_iff c).mp hop
  exact ⟨_, step_of_undefinedOpcode hp hc, raiseErr_reported _ _, rfl, rfl, rfl, rfl, rfl⟩

/-- Settles O5: both reset events lead to `resetTo`. -/
theorem resetEventResetsCore : Obligations.ResetEventResetsCore :=
  fun _ rest hp => ⟨_, step_of_reset hp, rfl, statusWord_resetTo rest, rfl, rfl, rfl, rfl, rfl⟩

/-- Settles O7: `State.reset` field by field. -/
theorem resetValues : Obligations.ResetValues :=
  ⟨rfl, rfl, rfl, rfl, rfl, rfl, statusWord_resetTo [], rfl, rfl, rfl⟩

/-- Settles O6: with nothing to fetch the step waits. -/
theorem coreWaitsWithoutEvent : Obligations.CoreWaitsWithoutEvent :=
  fun _ => step_of_noEvent

end

section
/-!
The invariant of the machine (R21 to R39): it holds after a reset, and each way a command can end, as
`exec_cases` lists them, keeps it.
-/

namespace Sys2Proof.Machine

variable {s t u : State} {c : Store}

/-! ## The datapath clause, by the lifecycle -/

theorem datapathFits_ready (hs : s.engine = .ready c) :
    s.DatapathFits ↔
      FitsBlock c.width s.blk ∧ FitsBlock c.width s.iv ∧ FitsBlock c.width s.cnt ∧ s.rnd ≤ c.r := by
  simp only [State.DatapathFits, hs]

theorem datapathFits_notReady (hs : s.NotReady) :
    s.DatapathFits ↔ s.blk = [] ∧ s.iv = [] ∧ s.cnt = [] ∧ s.rnd = 0 := by
  unfold State.DatapathFits
  cases he : s.engine with
  | ready c => exact absurd he (hs c)
  | unconfigured | failed => exact Iff.rfl

/-- Between two commands the engine of a `Ready` core is at rest. -/
theorem State.Inv.atRest (h : s.Inv) (hs : s.engine = .ready c) : AtRest c s := by
  obtain ⟨hblk, hiv, hcnt, hrnd⟩ := (datapathFits_ready hs).mp h.datapath_fits
  exact ⟨h.idle, h.idx_zero, hblk, hiv, hcnt, hrnd⟩

/-! ## What each state update does to the invariant -/

theorem resetTo_inv (rest : List HostEvent) : (resetTo rest).Inv where
  idle := rfl
  idx_zero := rfl
  store_valid _ h := by cases h
  datapath_fits := ⟨rfl, rfl, rfl, rfl⟩
  err_recorded _ h := by cases h
  degen_recorded h := by cases h
  failure_recorded h := by cases h

/-- The invariant reads neither the pending events nor the response. -/
theorem State.Inv.ports (h : s.Inv) (pending : List HostEvent) (response : Option Response) :
    { s with pending := pending, response := response }.Inv :=
  ⟨h.idle, h.idx_zero, h.store_valid, h.datapath_fits, h.err_recorded, h.degen_recorded,
    h.failure_recorded⟩

theorem State.Inv.raiseErr (h : s.Inv) (e : ErrClass) : (raiseErr e s).Inv where
  idle := rfl
  idx_zero := rfl
  store_valid := h.store_valid
  datapath_fits := h.datapath_fits
  err_recorded _ he := by
    cases he
    exact seen_recorded s.seen _
  degen_recorded hd := by cases hd
  failure_recorded hf := seen_kept s.seen _ _ (h.failure_recorded hf)

/-- A refused construction leaves the datapath as it was before any configuration. -/
theorem State.Inv.raiseFatal (h : s.Inv) (hs : s.engine = .unconfigured) : (raiseFatal s).Inv where
  idle := rfl
  idx_zero := rfl
  store_valid _ hc := by cases hc
  datapath_fits := by
    have hnot : s.NotReady := fun c hc => by cases hs.symm.trans hc
    exact (datapathFits_notReady hnot).mp h.datapath_fits
  err_recorded _ he := by
    cases he
    exact seen_recorded s.seen _
  degen_recorded hd := by cases hd
  failure_recorded _ := seen_recorded s.seen _

theorem State.Inv.complete (h : s.Inv) (d : Bool) (q : Option Result) : (complete d q s).Inv where
  idle := h.idle
  idx_zero := h.idx_zero
  store_valid := h.store_valid
  datapath_fits := h.datapath_fits
  err_recorded _ he := by cases he
  degen_recorded hd := by
    rw [complete_degen] at hd
    rw [complete_dseen, hd, Bool.or_true]
  failure_recorded := h.failure_recorded

/-- A valid store may take the place of no configuration: the empty registers fit it. -/
theorem State.Inv.configure (h : s.Inv) (hs : s.engine = .unconfigured) (hv : c.Valid) :
    { s with engine := .ready c }.Inv where
  idle := h.idle
  idx_zero := h.idx_zero
  store_valid _ hc := by
    cases hc
    exact hv
  datapath_fits := by
    have hnot : s.NotReady := fun c hc => by cases hs.symm.trans hc
    obtain ⟨hblk, hiv, hcnt, hrnd⟩ := (datapathFits_notReady hnot).mp h.datapath_fits
    exact ⟨.inl hblk, .inl hiv, .inl hcnt, hrnd.trans_le (Nat.zero_le c.r)⟩
  err_recorded := h.err_recorded
  degen_recorded := h.degen_recorded
  failure_recorded hf := by cases hf

/-- A datapath stage with a valid store comes to rest, and touches nothing else. -/
theorem State.Inv.datapathRun (h : s.Inv) (hs : s.engine = .ready c) (hu : DatapathRun c s u) :
    u.Inv := by
  have hrest := hu.rest (h.store_valid c hs) (h.atRest hs)
  have hengine := hu.only.engine_eq
  have hfits := (datapathFits_ready (hengine.trans hs)).mpr
    ⟨hrest.blk_fits, hrest.iv_fits, hrest.cnt_fits, hrest.rnd_le⟩
  have hvalid : ∀ c, u.engine = .ready c → c.Valid := fun c hc => h.store_valid c (hengine ▸ hc)
  refine ⟨hrest.idle, hrest.idx_zero, hvalid, hfits, ?_, ?_, ?_⟩
  all_goals rw [hu.only]
  · exact h.err_recorded
  · exact h.degen_recorded
  · exact h.failure_recorded

/-! ## Commands and steps -/

theorem exec_keeps_inv {i : Instr} (h : s.Inv) (hx : exec i s = .next t) : t.Inv := by
  cases exec_cases i s t hx with
  | stat _ ht => exact ht ▸ h.ports _ _
  | raised e _ ht _ => exact ht ▸ h.raiseErr e
  | late _ c u _ hs hu ht => exact ht ▸ (h.datapathRun hs hu).raiseErr _
  | fatal _ _ _ _ _ _ _ hs ht => exact ht ▸ h.raiseFatal hs
  | built n m r sbox perm key _ hs hv ht =>
    exact ht ▸ (h.configure hs (storeOf_valid n m r sbox perm key hv)).complete false none
  | done c d q u _ hs hu ht _ => exact ht ▸ (h.datapathRun hs hu).complete d (some q)

theorem step_keeps_inv (h : s.Inv) (hx : step s = .next t) : t.Inv := by
  cases step_cases s t hx with
  | waited _ ht => exact ht ▸ h
  | wasReset rest _ ht => exact ht ▸ resetTo_inv rest
  | rejected _ _ rest _ _ ht => exact ht ▸ (h.ports rest s.response).raiseErr _
  | ran _ _ rest _ _ hx => exact exec_keeps_inv (h.ports rest s.response) hx

end Sys2Proof.Machine

open Sys2Proof Sys2Proof.Machine

/-- Settles O8: the reset state is a reset with no event to come. -/
theorem invariantHoldsAtReset : Obligations.InvariantHoldsAtReset :=
  resetTo_inv []

/-- Settles O9: the inversions of `step` and of `exec` leave a few state updates, each of which keeps the
invariant. -/
theorem invariantKeptByEveryStep : Obligations.InvariantKeptByEveryStep :=
  fun _ _ => step_keeps_inv

end

section
/-!
The records of a command: what it leaves in `SEEN`, `DSEEN` and the datapath (R24 to R26, R229), and where
`STATUS` shows it (R23).
-/

namespace Sys2Proof.Machine

variable {i : Instr} {s t u : State}

theorem DatapathOnly.seen_eq (h : DatapathOnly s u) : u.seen = s.seen := by
  unfold DatapathOnly at h
  rw [h]

theorem DatapathOnly.dseen_eq (h : DatapathOnly s u) : u.dseen = s.dseen := by
  unfold DatapathOnly at h
  rw [h]

/-- An error of any command but `MDEC` comes before a datapath register is written (R229). -/
theorem exec_error_datapath {e : ErrClass} (hi : i ≠ .stat) (hmdec : ∀ a, i ≠ .mdec a)
    (hx : exec i s = .next t) (he : t.err = some e) :
    t.blk = s.blk ∧ t.rnd = s.rnd ∧ t.iv = s.iv ∧ t.cnt = s.cnt := by
  cases exec_cases i s t hx with
  | stat hstat _ => exact absurd hstat hi
  | raised _ _ ht _ | fatal _ _ _ _ _ _ _ _ ht =>
    subst ht
    exact ⟨rfl, rfl, rfl, rfl⟩
  | late a _ _ hlate _ _ _ => exact absurd hlate (hmdec a)
  | built _ _ _ _ _ _ _ _ _ ht | done _ _ _ _ _ _ _ ht _ =>
    subst ht
    cases he

/-- What a command does to the sticky records (R25, R26). -/
structure RecordsKept (i : Instr) (s t : State) : Prop where
  error : ∀ e, t.err = some e → t.seen = s.seen ||| seenMask e
  no_error : t.err = none → t.seen = s.seen
  dseen : t.dseen = (s.dseen || t.degen)
  degen : t.degen = true → t.err = none ∧ ((∃ a, i = .b2t a) ∨ ∃ a, i = .mdec a)

/-- Raising an error adds its class to `SEEN`, also after a datapath stage. -/
theorem recordsKept_raiseErr (hu : DatapathOnly s u) (e : ErrClass) :
    RecordsKept i s (raiseErr e u) where
  error _ he := by
    cases he
    rw [raiseErr_seen, hu.seen_eq]
  no_error he := by cases he
  dseen := by rw [raiseErr_dseen, raiseErr_degen, hu.dseen_eq, Bool.or_false]
  degen hd := by cases hd

/-- Completing adds `DEGEN` to `DSEEN` and leaves `SEEN`. -/
theorem recordsKept_complete (hseen : u.seen = s.seen) (hdseen : u.dseen = s.dseen) {d : Bool}
    (hd : d = true → (∃ a, i = .b2t a) ∨ ∃ a, i = .mdec a) (q : Option Result) :
    RecordsKept i s (complete d q u) where
  error _ he := by cases he
  no_error _ := hseen
  dseen := by rw [complete_dseen, complete_degen, hdseen]
  degen h := ⟨rfl, hd h⟩

theorem exec_recordsKept (hi : i ≠ .stat) (hx : exec i s = .next t) : RecordsKept i s t := by
  cases exec_cases i s t hx with
  | stat hstat _ => exact absurd hstat hi
  | raised e _ ht _ => exact ht ▸ recordsKept_raiseErr (.refl s) e
  | late _ _ _ _ _ hu ht => exact ht ▸ recordsKept_raiseErr hu.only _
  | fatal _ _ _ _ _ _ _ _ ht =>
    obtain ⟨herr, hnone, hdseen, hdegen⟩ :=
      recordsKept_raiseErr (i := i) (.refl s) .configurationError
    exact ht ▸ ⟨herr, hnone, hdseen, hdegen⟩
  | built _ _ _ _ _ _ _ _ _ ht =>
    subst ht
    refine recordsKept_complete ?_ ?_ ?_ none
    · rfl
    · rfl
    · nofun
  | done _ d q u _ _ hu ht hd =>
    exact ht ▸ recordsKept_complete hu.only.seen_eq hu.only.dseen_eq hd (some q)

/-! ## The layout of `STATUS` (R23), from bit 0 up: each field is found above the ones below it -/

theorem statusWord_life (s : State) : (statusWord s).extractLsb' 0 2 = lifeCode s.engine :=
  BitVec.extractLsb'_append_eq_right

theorem statusWord_err (s : State) : (statusWord s).extractLsb' 2 3 = errCode s.err := by
  simp (disch := decide) only [statusWord, BitVec.extractLsb'_append_eq_of_le,
    BitVec.extractLsb'_append_eq_right, Nat.reduceSub]

theorem statusWord_degen (s : State) : (statusWord s).getLsbD 5 = s.degen := by
  simp only [statusWord, BitVec.getLsbD_append, Nat.reduceLT, ↓reduceIte, Nat.reduceSub,
    BitVec.getLsbD_ofBool, decide_true, Bool.true_and]

theorem statusWord_seen (s : State) : (statusWord s).extractLsb' 6 4 = s.seen := by
  simp (disch := decide) only [statusWord, BitVec.extractLsb'_append_eq_of_le,
    BitVec.extractLsb'_append_eq_right, Nat.reduceSub]

theorem statusWord_dseen (s : State) : (statusWord s).getLsbD 10 = s.dseen := by
  simp only [statusWord, BitVec.getLsbD_append, Nat.reduceLT, ↓reduceIte, Nat.reduceSub,
    BitVec.getLsbD_ofBool, decide_true, Bool.true_and]

theorem statusWord_reserved (s : State) : (statusWord s).extractLsb' 11 5 = 0 := by
  simp (disch := decide) only [statusWord, BitVec.extractLsb'_append_eq_of_le,
    BitVec.extractLsb'_eq_self, Nat.reduceSub]; rfl

theorem statusWord_seen_bit (s : State) {j : Nat} (hj : j < 4) :
    (statusWord s).getLsbD (6 + j) = s.seen.getLsbD j := by
  rw [← statusWord_seen s, BitVec.getLsbD_extractLsb', decide_eq_true hj, Bool.true_and]

/-- A command that ends in an error leaves every bit of its class's mask set in `STATUS` (R25). -/
theorem exec_error_status_bit {e : ErrClass} (hi : i ≠ .stat) (hx : exec i s = .next t)
    (he : t.err = some e) {j : Nat} (hj : j < 4) (hbit : (seenMask e).getLsbD j = true) :
    (statusWord t).getLsbD (6 + j) = true := by
  rw [statusWord_seen_bit t hj, (exec_recordsKept hi hx).error e he, BitVec.getLsbD_or, hbit,
    Bool.or_true]

end Sys2Proof.Machine

open Sys2Proof Sys2Proof.Machine

/-- Settles O14: by the inversion of `exec`, an error other than the late one of `MDEC` is raised at the
state the command began in. -/
theorem errorsLeaveDatapath : Obligations.ErrorsLeaveDatapath :=
  fun _ _ _ _ => exec_error_datapath

/-- Settles O15: an error adds its mask, a completion keeps `SEEN`; `STAT` writes the response only. -/
theorem stickyRecords : Obligations.StickyRecords := by
  refine ⟨fun i s t hi hx => ?_, fun s t hx => ?_⟩
  · obtain ⟨herr, hnone, hdseen, hdegen⟩ := exec_recordsKept hi hx
    exact ⟨herr, hnone, hdseen, hdegen⟩
  · cases hx
    exact ⟨rfl, rfl, rfl, rfl⟩

/-- Settles O16: the fields are read off the concatenation, and a class that was just raised is in
`SEEN`. -/
theorem statusLayout : Obligations.StatusLayout := by
  refine ⟨fun s => ⟨statusWord_life s, ?_, ?_, ?_, statusWord_err s, ?_, ?_, ?_, ?_, ?_,
    statusWord_degen s, statusWord_seen s, statusWord_dseen s, statusWord_reserved s⟩,
    fun i s t e hi hx he => ⟨?_, ?_, ?_, ?_⟩, rfl, rfl, rfl, rfl⟩
  · exact fun h => (statusWord_life s).trans (congrArg lifeCode h)
  · exact fun c h => (statusWord_life s).trans (congrArg lifeCode h)
  · exact fun h => (statusWord_life s).trans (congrArg lifeCode h)
  · exact fun h => (statusWord_err s).trans (congrArg errCode h)
  · exact fun h => (statusWord_err s).trans (congrArg errCode h)
  · exact fun h => (statusWord_err s).trans (congrArg errCode h)
  · exact fun h => (statusWord_err s).trans (congrArg errCode h)
  · exact fun h => (statusWord_err s).trans (congrArg errCode h)
  · exact fun hc => exec_error_status_bit hi hx he (j := 0) (by decide) (hc ▸ rfl)
  · exact fun hc => exec_error_status_bit hi hx he (j := 1) (by decide) (hc ▸ rfl)
  · exact fun hc => exec_error_status_bit hi hx he (j := 2) (by decide) (hc ▸ rfl)
  · exact fun hc => exec_error_status_bit hi hx he (j := 3) (by decide) (hc ▸ rfl)

end

section
/-!
What a command reads (R45): every command but `STAT` answers from its operands, the lifecycle and the store,
whatever the other registers hold. One run against another from any two states with the same lifecycle and
store; one state against itself says that every command answers (R8, R96).
-/

namespace Sys2Proof.Machine

variable {c : Store} {s t : State}

/-! ## The engine and the CTR driver read no register that they have not written -/

/-- The two states agree on what the engine's table reads (R170). -/
structure EngineAgrees (s t : State) : Prop where
  blk : s.blk = t.blk
  rnd : s.rnd = t.rnd
  phase : s.phase = t.phase

theorem microStep_agrees (h : EngineAgrees s t) : EngineAgrees (microStep c s) (microStep c t) := by
  obtain ⟨hblk, hrnd, hphase⟩ := h
  unfold microStep
  rw [hphase, hrnd]
  cases t.phase with
  | idle => exact ⟨hblk, hrnd, hphase⟩
  | whitened | round =>
    dsimp only
    split
    · exact ⟨by simp only [stepRound, hblk], rfl, rfl⟩
    · exact ⟨by simp only [stepFinal, hblk], rfl, rfl⟩
  | unFinal | unRound =>
    dsimp only
    split
    · exact ⟨by simp only [stepUnRound, hblk], rfl, rfl⟩
    · exact ⟨by simp only [stepUnWhiten, hblk], rfl, rfl⟩
  | finalRound | unWhitened | output => exact ⟨hblk, rfl, rfl⟩

theorem microSteps_agrees (k : Nat) (h : EngineAgrees s t) :
    EngineAgrees (microSteps c k s) (microSteps c k t) := by
  induction k generalizing s t with
  | zero => exact h
  | succ k ih => exact ih (microStep_agrees h)

/-- The first step of an encryption writes all that the table reads. -/
theorem runEncrypt_blk_agrees (c : Store) (a : Bits) (s t : State) :
    (runEncrypt c a s).blk = (runEncrypt c a t).blk :=
  (microSteps_agrees (s := stepWhiten c a s) (t := stepWhiten c a t) (c.r + 2) ⟨rfl, rfl, rfl⟩).blk

theorem runDecrypt_blk_agrees (c : Store) (a : Bits) (s t : State) :
    (runDecrypt c a s).blk = (runDecrypt c a t).blk :=
  (microSteps_agrees (s := stepUnFinal c a s) (t := stepUnFinal c a t) (c.r + 2) ⟨rfl, rfl, rfl⟩).blk

theorem microStep_iv (c : Store) (s : State) : (microStep c s).iv = s.iv := by
  unfold microStep
  cases s.phase with
  | idle | finalRound | output | unWhitened => rfl
  | whitened | round | unFinal | unRound => dsimp only; split <;> rfl

theorem microSteps_iv (c : Store) (k : Nat) (s : State) : (microSteps c k s).iv = s.iv := by
  induction k generalizing s with
  | zero => rfl
  | succ k ih => exact (ih _).trans (microStep_iv c s)

theorem runEncrypt_iv (c : Store) (a : Bits) (s : State) : (runEncrypt c a s).iv = s.iv :=
  microSteps_iv c _ _

/-- The output of the payload loop depends on the state by the IV only (R195). -/
theorem ctrLoop_output_agrees (c : Store) (stream : Blocks) (k i : Nat) (out : Blocks)
    (h : s.iv = t.iv) : (ctrLoop c stream k i out s).1 = (ctrLoop c stream k i out t).1 := by
  induction k generalizing i out s t with
  | zero => rfl
  | succ k ih =>
    simp only [ctrLoop]
    rw [runEncrypt_blk_agrees c _ { s with idx := _, cnt := _ } { t with idx := _, cnt := _ }, h]
    exact ih _ _ (by rw [runEncrypt_iv, runEncrypt_iv])

/-- A CTR pass writes the IV before it reads it (R193). -/
theorem ctrRun_output_agrees (c : Store) (stream out : Blocks) (s t : State) :
    (ctrRun c stream out s).1 = (ctrRun c stream out t).1 :=
  ctrLoop_output_agrees c stream _ 1 out rfl

/-! ## Answers that agree -/

/-- Both answers are next states, and what a host can observe of them is the same. -/
def Agree (x y : Answer) : Prop :=
  ∃ t u r, x = .next t ∧ y = .next u ∧ t.response = some r ∧ u.response = some r ∧
    t.engine = u.engine ∧ t.err = u.err ∧ t.degen = u.degen

theorem agree_err {e : ErrClass} (h : s.engine = t.engine) :
    Agree (answerErr e s) (answerErr e t) :=
  ⟨_, _, _, rfl, rfl, rfl, rfl, h, rfl, rfl⟩

theorem agree_ok {q r : Result} (h : s.engine = t.engine) (hq : q = r) :
    Agree (answerOk q s) (answerOk r t) :=
  ⟨_, _, _, rfl, rfl, rfl, hq ▸ rfl, h, rfl, rfl⟩

theorem agree_text {d e : DecodedText} (h : s.engine = t.engine) (hd : d = e) :
    Agree (answerText d s) (answerText e t) := by
  subst hd
  cases d with
  | text y => exact agree_ok h rfl
  | noMarker => exact ⟨_, _, _, rfl, rfl, rfl, rfl, h, rfl, rfl⟩
  | misaligned => exact agree_err h

theorem agree_ite {p : Prop} [Decidable p] {x₁ x₂ y₁ y₂ : Answer} (hx : Agree x₁ x₂)
    (hy : Agree y₁ y₂) : Agree (if p then x₁ else y₁) (if p then x₂ else y₂) := by
  split
  · exact hx
  · exact hy

theorem agree_width {k : Nat} {x y : Answer} (h : s.engine = t.engine) (hx : Agree x y) :
    Agree (whenWidth k s x) (whenWidth k t y) :=
  agree_ite (agree_err h) hx

theorem agree_block {a : Bits} {x y : Answer} (h : s.engine = t.engine) (hx : Agree x y) :
    Agree (whenBlock c a s x) (whenBlock c a t y) :=
  agree_ite hx (agree_err h)

theorem agree_blockSyms {a : Syms} {x y : Answer} (h : s.engine = t.engine) (hx : Agree x y) :
    Agree (whenBlockSyms c a s x) (whenBlockSyms c a t y) :=
  agree_ite (agree_err h) (agree_ite hx (agree_err h))

theorem agree_ready {f g : Store → Answer} (h : s.engine = t.engine) (hf : ∀ c, Agree (f c) (g c)) :
    Agree (whenReady s f) (whenReady t g) := by
  unfold whenReady
  rw [h]
  cases t.engine with
  | ready c => exact hf c
  | unconfigured | failed => exact agree_err h

/-- Datapath stages leave lifecycles that agree so. -/
theorem engine_agrees {s' t' : State} (hs : DatapathOnly s s') (ht : DatapathOnly t t')
    (h : s.engine = t.engine) : s'.engine = t'.engine := by
  rw [hs.engine_eq, ht.engine_eq, h]

theorem ctrRun_engine_agrees {stream out : Blocks} (h : s.engine = t.engine) :
    (ctrRun c stream out s).2.engine = (ctrRun c stream out t).2.engine :=
  engine_agrees (ctrRun_datapathOnly c stream out s) (ctrRun_datapathOnly c stream out t) h

/-- A result made from the output of a CTR pass. -/
theorem agree_ctrRun {stream out : Blocks} (h : s.engine = t.engine) (f : Blocks → Result) :
    Agree (answerOk (f (ctrRun c stream out s).1) (ctrRun c stream out s).2)
      (answerOk (f (ctrRun c stream out t).1) (ctrRun c stream out t).2) :=
  agree_ok (ctrRun_engine_agrees h) (congrArg f (ctrRun_output_agrees c stream out s t))

theorem agree_cfg (n m r : Nat) (sbox perm : Syms) (key : Bits) (h : s.engine = t.engine) :
    Agree (execCfg n m r sbox perm key s) (execCfg n m r sbox perm key t) := by
  unfold execCfg
  rw [h]
  cases t.engine with
  | unconfigured =>
    exact agree_ite ⟨_, _, _, rfl, rfl, rfl, rfl, rfl, rfl, rfl⟩
      ⟨_, _, _, rfl, rfl, rfl, rfl, rfl, rfl, rfl⟩
  | ready _ | failed => exact agree_err h

/-- R45: a command other than `STAT` reads the lifecycle and the store of the state, and nothing else. -/
theorem exec_agree (i : Instr) (hi : i ≠ .stat) (h : s.engine = t.engine) :
    Agree (exec i s) (exec i t) := by
  cases i with
  | stat => exact absurd rfl hi
  | cfg n m r sbox perm key => exact agree_cfg n m r sbox perm key h
  | b2s | pad | split => exact agree_ready h fun _ => agree_width h (agree_ok h rfl)
  | s2b =>
    exact agree_ready h fun _ => agree_width h (agree_ite (agree_ok h rfl) (agree_err h))
  | t2b | xor => exact agree_ready h fun _ => agree_ite (agree_ok h rfl) (agree_err h)
  | b2t => exact agree_ready h fun _ => agree_text h rfl
  | join => exact agree_ready h fun _ => agree_ok h rfl
  | sub | isub => exact agree_ready h fun _ => agree_blockSyms h (agree_ok h rfl)
  | prm | iprm => exact agree_ready h fun _ => agree_block h (agree_ok h rfl)
  | kgen => exact agree_ready h fun _ => agree_ite (agree_err h) (agree_ok h rfl)
  | enc a =>
    exact agree_ready h fun c => agree_block h
      (agree_ok (engine_agrees (runEncrypt_datapathOnly c a s) (runEncrypt_datapathOnly c a t) h)
        (congrArg Result.bits (runEncrypt_blk_agrees c a s t)))
  | dec a =>
    exact agree_ready h fun c => agree_block h
      (agree_ok (engine_agrees (runDecrypt_datapathOnly c a s) (runDecrypt_datapathOnly c a t) h)
        (congrArg Result.bits (runDecrypt_blk_agrees c a s t)))
  | ctrx | ctre =>
    exact agree_ready h fun _ =>
      agree_ite (agree_err h) (agree_ite (agree_ctrRun h .blocks) (agree_err h))
  | menc =>
    exact agree_ready h fun _ => agree_ite (agree_err h)
      (agree_ite (agree_ctrRun h fun b => .bits (joinBlocks b)) (agree_err h))
  | mdec a =>
    refine agree_ready h fun c => agree_ite (agree_err h) (agree_text (ctrRun_engine_agrees h) ?_)
    rw [ctrRun_output_agrees c _ _ s t]

end Sys2Proof.Machine

open Sys2Proof Sys2Proof.Machine

/-- Settles O10: `STAT` answers by its definition, and every other command run against itself agrees with
itself on a response. -/
theorem everyCommandAnswers : Obligations.EveryCommandAnswers := by
  intro i s
  by_cases hi : i = .stat
  · subst hi
    exact ⟨_, _, rfl, rfl⟩
  · obtain ⟨t, -, r, ht, -, hr, -⟩ := exec_agree i hi (rfl : s.engine = s.engine)
    exact ⟨t, r, ht, hr⟩

/-- Settles O17: two runs of one command agree, since they can only differ in what no command reads. -/
theorem responseDependsOnStoreOnly : Obligations.ResponseDependsOnStoreOnly := by
  intro i s₁ s₂ t₁ t₂ hi hs _ h₁ h₂
  obtain ⟨t, u, r, ht, hu, htr, hur, hengine, herr, hdegen⟩ := exec_agree i hi hs
  cases h₁.symm.trans ht
  cases h₂.symm.trans hu
  exact ⟨htr.trans hur.symm, hengine, herr, hdegen⟩

end

section
/-!
Ill-formed commands (log 17): each check that needs no configuration is a check of the command itself, so a
command that fails it never completes.
-/

namespace Sys2Proof.Machine

variable {s : State}

/-- The command ends with an error. -/
def Fails (x : Answer) : Prop :=
  ∃ t e, x = .next t ∧ t.err = some e

theorem fails_err (e : ErrClass) (s : State) : Fails (answerErr e s) :=
  ⟨_, e, rfl, rfl⟩

theorem fails_ready {run : Store → Answer} (h : ∀ c, Fails (run c)) : Fails (whenReady s run) := by
  rcases ready_or_notReady s with ⟨c, hs⟩ | hs
  · exact whenReady_ready s c run hs ▸ h c
  · exact whenReady_notReady s run hs ▸ fails_err _ s

theorem fails_ite {p : Prop} [Decidable p] {x y : Answer} (hx : p → Fails x) (hy : ¬p → Fails y) :
    Fails (if p then x else y) := by
  split
  · exact hx ‹_›
  · exact hy ‹_›

/-- The zero-width check is itself an error; what is left is a command of positive width. -/
theorem fails_width {k : Nat} {x : Answer} (hx : 0 < k → Fails x) : Fails (whenWidth k s x) :=
  fails_ite (fun _ => fails_err _ s) fun hk => hx (Nat.pos_of_ne_zero hk)

theorem fails_text {d : DecodedText} (hd : d = .misaligned) : Fails (answerText d s) := by
  subst hd
  exact fails_err _ s

/-- The empty string has no chunk, whatever the width. -/
theorem chunkCount_zero (k : Nat) : chunkCount 0 k = 0 := by
  unfold chunkCount
  rw [Nat.div_eq_zero_iff]
  omega

/-- A command that fails its well-formedness check ends with an error in every state. -/
theorem exec_illFormed_fails (i : Instr) (s : State) (h : i.wellFormed = false) :
    Fails (exec i s) := by
  cases i with
  | cfg n m r sbox perm key =>
    have hv : ¬ cfgValid n m r sbox perm key = true := by simpa [Instr.wellFormed] using h
    have hrefused : ¬ CfgAccepts n m r sbox perm key := mt (cfgAccepts_iff n m r sbox perm key).mp hv
    by_cases hs : s.engine = .unconfigured
    · exact ⟨_, _, exec_cfg_refused hs hrefused, rfl⟩
    · exact ⟨_, _, execCfg_configured n m r sbox perm key s hs, rfl⟩
  | b2s a k | pad a k | split a k =>
    have hk : ¬ 0 < k := by simpa [Instr.wellFormed] using h
    exact fails_ready fun _ => fails_width fun hpos => absurd hpos hk
  | s2b a k =>
    refine fails_ready fun _ => fails_width fun hk => fails_ite (fun ha => ?_) fun _ => fails_err _ s
    simp [Instr.wellFormed, hk, ha] at h
  | t2b a =>
    have ha : ¬ isByteText a = true := by simpa [Instr.wellFormed] using h
    exact fails_ready fun _ => fails_ite (fun hb => absurd hb ha) fun _ => fails_err _ s
  | b2t a =>
    have ha : bitsToText a = .misaligned := by simpa [Instr.wellFormed] using h
    exact fails_ready fun _ => fails_text ha
  | xor a b =>
    have hl : ¬ a.length = b.length := by simpa [Instr.wellFormed] using h
    exact fails_ready fun _ => fails_ite (fun he => absurd he hl) fun _ => fails_err _ s
  | ctrx a =>
    have ha : a.length = 0 := by simpa [Instr.wellFormed] using h
    exact fails_ready fun _ => fails_ite (fun _ => fails_err _ s) fun hne => absurd ha hne
  | menc a v =>
    have ha : ¬ isByteText a = true := by simpa [Instr.wellFormed] using h
    exact fails_ready fun _ => fails_ite (fun _ => fails_err _ s) fun _ =>
      fails_ite (fun hb => absurd hb ha) fun _ => fails_err _ s
  | mdec a =>
    have ha : a = [] := by simpa [Instr.wellFormed] using h
    subst ha
    exact fails_ready fun c => fails_ite (fun _ => fails_err _ s) fun hne =>
      absurd ((splitIntoBlocks_length [] c.width).trans (chunkCount_zero c.width)) hne
  | stat | join | sub | isub | prm | iprm | kgen | enc | dec | ctre => cases h

end Sys2Proof.Machine

open Sys2Proof Sys2Proof.Machine

/-- Settles O18: the failed check turns every branch that could complete into one that cannot be reached. -/
theorem illFormedCommandsRaise : Obligations.IllFormedCommandsRaise := by
  intro i s t hi hx
  obtain ⟨u, e, hu, he⟩ := exec_illFormed_fails i s hi
  cases hx.symm.trans hu
  simp [he]

end

section
/-!
The integer view (R11), and the round trips of the codec and of the layers (R114, R123, R143, R153): a first
command answers a result, the core stays as it was configured, and a second command takes the result back.
-/

namespace Sys2Proof.Machine

/-- `val` as the sum of R11: the leftmost bit has the highest weight. -/
theorem val_eq_sum (b : Bits) : val b = ((List.range b.length).map fun i =>
    if b[i]? = some true then 2 ^ (b.length - 1 - i) else 0).sum := by
  induction b with
  | nil => rfl
  | cons x xs ih =>
    have hweight (i : Nat) : (xs.length + 1) - 1 - (i + 1) = xs.length - 1 - i := by omega
    rw [val_cons, List.length_cons, List.range_succ_eq_map, List.map_cons, List.sum_cons, List.map_map]
    simp only [Function.comp_def, List.getElem?_cons_succ, List.getElem?_cons_zero, hweight]
    rw [← ih]
    cases x <;> simp

/-- `bits_k(v)` is the one `k`-bit string with the value of `v` modulo `2^k` (R11). -/
theorem eq_bitsOf_iff (k v : Nat) (b : Bits) : b = bitsOf k v ↔ b.length = k ∧ val b = v % 2 ^ k := by
  constructor
  · rintro rfl
    exact ⟨bitsOf_length k v, val_bitsOf k v⟩
  · rintro ⟨hlen, hval⟩
    exact val_inj _ _ (hlen.trans (bitsOf_length k v).symm) (hval.trans (val_bitsOf k v).symm)

/-! ## Two commands in a row -/

variable {α : Type} {i : Instr} {s u : State} {c : Store} {q q' : Result}

/-- The command completes with result `q` and `DEGEN = 0`, and keeps lifecycle and store. -/
def Answers (i : Instr) (s : State) (q : Result) : Prop :=
  ∃ t, exec i s = .next t ∧ t.engine = s.engine ∧ t.response = some ⟨none, false, some q⟩

theorem answers_of_run (hu : DatapathOnly s u) (hx : exec i s = answerOk q u) : Answers i s q :=
  ⟨_, hx, hu.engine_eq, rfl⟩

theorem answers_of_ok (hx : exec i s = answerOk q s) : Answers i s q :=
  answers_of_run (.refl s) hx

/-- The result `x` of a first command is the operand of a second one, which answers `q'` in every core
configured as the first one was. -/
theorem Answers.andThen {f : α → Result} {j : α → Instr} {x : α} (hi : Answers i s (f x))
    (hj : ∀ t : State, t.engine = s.engine → Answers (j x) t q') :
    ∃ t u y, exec i s = .next t ∧ t.response = some ⟨none, false, some (f y)⟩ ∧
      exec (j y) t = .next u ∧ u.response = some ⟨none, false, some q'⟩ := by
  obtain ⟨t, ht, hengine, htr⟩ := hi
  obtain ⟨u, hu, -, hur⟩ := hj t hengine
  exact ⟨t, u, x, ht, htr, hu, hur⟩

end Sys2Proof.Machine

open Sys2Proof Sys2Proof.Machine

/-- Settles O21: the sum by induction from the left, and `bits_k` by the injectivity of `val`. -/
theorem integerView : Obligations.IntegerView :=
  ⟨val_eq_sum, eq_bitsOf_iff, bitsOf_getElem?, bitsOf_val⟩

/-- Settles O30: the symbols of `B2S` are in range for `S2B`, and the functions invert each other. -/
theorem symbolRoundTrips : Obligations.SymbolRoundTrips := by
  refine ⟨symbolsInvert, fun k s c hs hk => ?_⟩
  obtain ⟨hfill, -, hsyms⟩ := symbolsInvert k hk
  refine ⟨fun b => ?_, fun y hy => ?_⟩
  · refine (answers_of_ok (exec_b2s b hs hk)).andThen fun t ht => ?_
    have hx := exec_s2b_inRange (ht.trans hs) hk (bitsToSymbols_lt b k)
    rw [hfill b] at hx
    exact answers_of_ok hx
  · refine (answers_of_ok (exec_s2b_inRange hs hk hy)).andThen fun t ht => ?_
    have hx := exec_b2s (symbolsToBits y k) (ht.trans hs) hk
    rw [hsyms y hy] at hx
    exact answers_of_ok hx

/-- Settles O31: the marker that `PAD` writes is the last one, and the text stands before it. -/
theorem paddingRoundTrip : Obligations.PaddingRoundTrip := by
  refine ⟨fun w _ => paddingInverts w, fun y w s c hs hw hy => ?_⟩
  obtain ⟨t, ht, hengine, htr⟩ := answers_of_ok (exec_t2b_bytes hs hy)
  have hready : t.engine = .ready c := hengine.trans hs
  have hb2t (u : State) (hu : u.engine = t.engine) :
      Answers (.b2t (padForBlocks (textToBits y) w)) u (.text y) := by
    have hx := exec_b2t (padForBlocks (textToBits y) w) (hu.trans hready)
    rw [paddingInverts w y hy] at hx
    exact answers_of_ok hx
  obtain ⟨u, v, p, hu, hur, hv, hvr⟩ :=
    (answers_of_ok (exec_pad (textToBits y) hready hw)).andThen hb2t
  exact ⟨t, u, v, _, p, ht, htr, hu, hur, hv, hvr⟩

/-- Settles O34: both tables keep symbols in range, so that the second command admits the result. -/
theorem substitutionInverse : Obligations.SubstitutionInverse := by
  refine ⟨fun c hv => hv.substitutionInverts, fun a s c hs hv hl ha => ⟨?_, ?_⟩⟩
  · refine (answers_of_ok (exec_sub hs hl ha)).andThen fun t ht => ?_
    have hx := exec_isub (ht.trans hs) (substSyms_length.trans hl) (substSyms_lt a hv ha)
    rw [invSubstSyms_substSyms a hv ha] at hx
    exact answers_of_ok hx
  · refine (answers_of_ok (exec_isub hs hl ha)).andThen fun t ht => ?_
    have hx := exec_sub (ht.trans hs) (invSubstSyms_length.trans hl) (invSubstSyms_lt a hv ha)
    rw [substSyms_invSubstSyms a hv ha] at hx
    exact answers_of_ok hx

/-- Settles O37: both scatters keep the block width, so that the second command admits the result. -/
theorem permutationInverse : Obligations.PermutationInverse := by
  refine ⟨fun c hv => hv.permutationInverts, fun a s c hs hv hl => ⟨?_, ?_⟩⟩
  · refine (answers_of_ok (exec_prm hs hl)).andThen fun t ht => ?_
    have hx := exec_iprm (ht.trans hs) (permute_length a hv)
    rw [invPermute_permute a hv hl] at hx
    exact answers_of_ok hx
  · refine (answers_of_ok (exec_iprm hs hl)).andThen fun t ht => ?_
    have hx := exec_prm (ht.trans hs) (invPermute_length a hv)
    rw [permute_invPermute a hv hl] at hx
    exact answers_of_ok hx

end

section
/-!
The round engine: its table (R170), the chain of phases of a whole run, and `ENC` and `DEC`, which answer what
the micro-steps compute (R171, R177, R183).
-/

namespace Sys2Proof.Machine

variable {i : Instr} {s u : State} {c : Store} {a : Bits}

/-! ## The rows of the table -/

theorem microStep_forward_round (hp : s.phase = .whitened ∨ s.phase = .round) (h : s.rnd + 1 < c.r) :
    microStep c s = stepRound c (s.rnd + 1) s := by
  rcases hp with hp | hp <;> simp only [microStep, hp, if_pos h]

theorem microStep_forward_final (hp : s.phase = .whitened ∨ s.phase = .round)
    (h : ¬ s.rnd + 1 < c.r) : microStep c s = stepFinal c s := by
  rcases hp with hp | hp <;> simp only [microStep, hp, if_neg h]

theorem microStep_backward_round (hp : s.phase = .unFinal ∨ s.phase = .unRound) (h : 1 < s.rnd) :
    microStep c s = stepUnRound c (s.rnd - 1) s := by
  rcases hp with hp | hp <;> simp only [microStep, hp, if_pos h]

theorem microStep_backward_final (hp : s.phase = .unFinal ∨ s.phase = .unRound) (h : ¬ 1 < s.rnd) :
    microStep c s = stepUnWhiten c s := by
  rcases hp with hp | hp <;> simp only [microStep, hp, if_neg h]

theorem microStep_toOutput (hp : s.phase = .finalRound ∨ s.phase = .unWhitened) :
    microStep c s = { s with phase := .output } := by
  rcases hp with hp | hp <;> simp only [microStep, hp]

theorem microStep_toIdle (hp : s.phase = .output) : microStep c s = { s with phase := .idle } := by
  simp only [microStep, hp]

/-! ## The end of a run (R175) -/

theorem microSteps_encrypt_output (c : Store) (a : Bits) (s : State) (hr : 1 ≤ c.r) :
    microSteps c (c.r + 1) (stepWhiten c a s) =
      { s with blk := encBlock c a, rnd := c.r, phase := .output } := by
  rw [microSteps_succ, microSteps_encrypt_final c a s hr, microStep_toOutput (.inl rfl)]

theorem microSteps_decrypt_output (c : Store) (a : Bits) (s : State) (hr : 1 ≤ c.r) :
    microSteps c (c.r + 1) (stepUnFinal c a s) =
      { s with blk := decBlock c a, rnd := 0, phase := .output } := by
  rw [microSteps_succ, microSteps_decrypt_final c a s hr, microStep_toOutput (.inr rfl)]

/-! ## The commands in `Ready` -/

/-- Completing after a datapath stage reports as completing at once. -/
theorem DatapathOnly.complete_completed (hu : DatapathOnly s u) (d : Bool) (q : Result) :
    Completed s (complete d (some q) u) q d := by
  unfold DatapathOnly at hu
  rw [hu]
  exact ⟨rfl, rfl, rfl, rfl, rfl, rfl, rfl⟩

theorem exec_enc (hs : s.engine = .ready c) (hv : c.Valid) (hl : a.length = c.width) :
    exec (.enc a) s = answerOk (.bits (encBlock c a)) (runEncrypt c a s) := by
  have hx : exec (.enc a) s = answerOk (.bits (runEncrypt c a s).blk) (runEncrypt c a s) :=
    exec_of_block (run := fun c => answerOk (.bits (runEncrypt c a s).blk) (runEncrypt c a s)) rfl hs hl
  rw [hx, runEncrypt_eq c a s hv.r_pos]

theorem exec_dec (hs : s.engine = .ready c) (hv : c.Valid) (hl : a.length = c.width) :
    exec (.dec a) s = answerOk (.bits (decBlock c a)) (runDecrypt c a s) := by
  have hx : exec (.dec a) s = answerOk (.bits (runDecrypt c a s).blk) (runDecrypt c a s) :=
    exec_of_block (run := fun c => answerOk (.bits (runDecrypt c a s).blk) (runDecrypt c a s)) rfl hs hl
  rw [hx, runDecrypt_eq c a s hv.r_pos]

theorem answers_enc (hs : s.engine = .ready c) (hv : c.Valid) (hl : a.length = c.width) :
    Answers (.enc a) s (.bits (encBlock c a)) :=
  answers_of_run (runEncrypt_datapathOnly c a s) (exec_enc hs hv hl)

theorem answers_dec (hs : s.engine = .ready c) (hv : c.Valid) (hl : a.length = c.width) :
    Answers (.dec a) s (.bits (decBlock c a)) :=
  answers_of_run (runDecrypt_datapathOnly c a s) (exec_dec hs hv hl)

end Sys2Proof.Machine

open Sys2Proof Sys2Proof.Machine

/-- Settles O52: `phaseCode` phase by phase. -/
theorem phaseCodes : Obligations.PhaseCodes :=
  ⟨rfl, rfl, rfl, rfl, rfl, rfl, rfl, rfl⟩

/-- Settles O39: one row of the table per form of the current phase and round index. -/
theorem microStepTable : Obligations.MicroStepTable := by
  intro c s
  refine ⟨fun a => rfl, fun a => rfl, fun hp => ⟨fun h => microStep_forward_round hp h, fun h => ?_⟩,
    fun hp => ⟨fun h => ?_, fun h => ?_⟩, microStep_toOutput, microStep_toIdle⟩
  · exact microStep_forward_final hp (Nat.not_lt.mpr h.ge)
  · exact microStep_backward_round hp (by omega)
  · exact microStep_backward_final hp (by omega)

/-- Settles O40: the state after each number of micro-steps is known, and its `PHASE` and `RND` are read
off. -/
theorem enginePhaseChain : Obligations.EnginePhaseChain := by
  intro c a s hr
  refine ⟨⟨rfl, rfl, rfl, rfl⟩, fun j hj hjr => ?_, ?_, ?_, ?_⟩
  · have hne : j ≠ 0 := by omega
    rw [microSteps_encrypt_rounds c a s j hjr, microSteps_decrypt_rounds c a s j hjr]
    exact ⟨if_neg hne, rfl, if_neg hne, rfl⟩
  · rw [microSteps_encrypt_final c a s hr, microSteps_decrypt_final c a s hr]
    exact ⟨rfl, rfl, rfl, rfl⟩
  · rw [microSteps_encrypt_output c a s hr, microSteps_decrypt_output c a s hr]
    exact ⟨rfl, rfl, rfl, rfl⟩
  · have henc := runEncrypt_eq c a s hr
    have hdec := runDecrypt_eq c a s hr
    unfold runEncrypt at henc
    unfold runDecrypt at hdec
    rw [henc, hdec]
    exact ⟨rfl, rfl, rfl, rfl⟩

/-- Settles O41: the checks decide, and the registers are those of the run, which computes `enc`. -/
theorem encRule : Obligations.EncRule := by
  intro a s
  refine ⟨raises_of_notReady rfl, fun c hs hv => ⟨raises_of_blockWidth rfl hs, fun hl => ?_⟩⟩
  refine ⟨_, exec_enc hs hv hl, (runEncrypt_datapathOnly c a s).complete_completed false _,
    encBlock_length a hv hl, ?_⟩
  have hdata := complete_sameDatapath false (some (.bits (encBlock c a))) (runEncrypt c a s)
  have hrun := runEncrypt_eq c a s hv.r_pos
  refine ⟨?_, ?_, ?_, ?_, ?_, ?_, hdata⟩ <;> rw [hrun] <;> rfl

/-- Settles O42: as `ENC`, with the mirror steps, which compute `dec`. -/
theorem decRule : Obligations.DecRule := by
  intro a s
  refine ⟨raises_of_notReady rfl, fun c hs hv => ⟨raises_of_blockWidth rfl hs, fun hl => ?_⟩⟩
  refine ⟨_, exec_dec hs hv hl, (runDecrypt_datapathOnly c a s).complete_completed false _,
    decBlock_length a hv hl, ?_⟩
  have hdata := complete_sameDatapath false (some (.bits (decBlock c a))) (runDecrypt c a s)
  have hrun := runDecrypt_eq c a s hv.r_pos
  refine ⟨?_, ?_, ?_, ?_, ?_, ?_, hdata⟩ <;> rw [hrun] <;> rfl

/-- Settles O43: either command keeps the block width, so that the other one admits its result. -/
theorem encDecRoundTrip : Obligations.EncDecRoundTrip := by
  refine ⟨fun c hv => hv.roundTrips, fun x s c hs hv hx => ⟨?_, ?_⟩⟩
  · refine (answers_enc hs hv hx).andThen fun t ht => ?_
    have hdec := answers_dec (ht.trans hs) hv (encBlock_length x hv hx)
    rwa [decBlock_encBlock x hv hx] at hdec
  · refine (answers_dec hs hv hx).andThen fun t ht => ?_
    have henc := answers_enc (ht.trans hs) hv (decBlock_length x hv hx)
    rwa [encBlock_decBlock x hv hx] at henc

end

section
/-!
The message pipeline (R203 to R205) and the symmetry of CTR (R197, R202): `MDEC` by the function it computes,
its three outcomes by the bits it recovers, and the CTR commands in a row.
-/

namespace Sys2Proof.Machine

variable {i : Instr} {s u : State} {c : Store} {v : Bits} {p : Blocks} {a : Bits} {y : Text}

/-! ## The first block of a stream and its payload -/

/-- A string that is not empty has a first block. -/
theorem splitIntoBlocks_eq_cons {w : Nat} (hw : 0 < w) (ha : a ≠ []) :
    ∃ v p, splitIntoBlocks a w = v :: p := by
  refine List.exists_cons_of_ne_nil fun hnil => ha ?_
  have hcount : chunkCount a.length w = 0 := by rw [← splitIntoBlocks_length, hnil, List.length_nil]
  have hlen := (chunkCount_bounds a.length w hw).1
  rw [hcount, Nat.zero_mul] at hlen
  exact List.eq_nil_of_length_eq_zero (Nat.le_zero.mp hlen)

/-- Fewer than `w` zeros fill the string up to its first block and the payload. -/
theorem zeroFill_eq_cons {w : Nat} (hw : 0 < w) (h : splitIntoBlocks a w = v :: p) :
    ∃ z, z < w ∧ a.length + z = (p.length + 1) * w ∧ a ++ zeros z = v ++ p.flatten := by
  have hcount : chunkCount a.length w = p.length + 1 := by
    rw [← splitIntoBlocks_length, h, List.length_cons]
  have hfill : zeroFill a w = v ++ p.flatten := by
    rw [← joinBlocks_split a w hw, h, joinBlocks, List.flatten_cons]
  obtain ⟨hlow, hhigh⟩ := chunkCount_bounds a.length w hw
  rw [zeroFill, hcount] at hfill
  rw [hcount] at hlow hhigh
  exact ⟨(p.length + 1) * w - a.length, by omega, by omega, hfill⟩

/-! ## CTR output as bits -/

/-- The joined output is the joined payload mixed with the keystream (R190, R192). -/
theorem joinBlocks_ctrTransform (hv : c.Valid) (hp : ∀ b ∈ p, b.length = c.width) :
    joinBlocks (ctrTransform c v p) = xorBits p.flatten (keystream c v p.length) := by
  have h := joinBlocks_ctrRun v p [] State.reset hv hp
  rwa [ctrRun_output v p [] State.reset hv] at h

theorem encodeMessage_eq (hv : c.Valid)
    (hp : p = splitIntoBlocks (padForBlocks (textToBits y) c.width) c.width) :
    encodeMessage c y v =
      v ++ xorBits (padForBlocks (textToBits y) c.width) (keystream c v p.length) := by
  have hw : ∀ b ∈ p, b.length = c.width := hp ▸ splitIntoBlocks_width _ _ hv.width_pos
  have hjoin : p.flatten = padForBlocks (textToBits y) c.width :=
    hp ▸ joinBlocks_split_padded (textToBits y) hv.width_pos
  rw [encodeMessage, ← hp, joinBlocks, List.flatten_cons, ← hjoin]
  exact congrArg (v ++ ·) (joinBlocks_ctrTransform hv hw)

theorem decodeMessage_eq (h : splitIntoBlocks a c.width = v :: p) :
    decodeMessage c a = bitsToText (joinBlocks (ctrTransform c v p)) := by
  rw [decodeMessage, h]
  rfl

/-! ## The commands in `Ready` -/

theorem answers_ctrx (hs : s.engine = .ready c) (hv : c.Valid)
    (hw : ∀ b ∈ v :: p, b.length = c.width) :
    Answers (.ctrx (v :: p)) s (.blocks (ctrTransform c v p)) :=
  answers_of_run (ctrRun_datapathOnly c _ _ s) (exec_ctrx hs hv hw)

theorem answers_ctre (hs : s.engine = .ready c) (hv : c.Valid)
    (hw : ∀ b ∈ v :: p, b.length = c.width) :
    Answers (.ctre v p) s (.blocks (v :: ctrTransform c v p)) :=
  answers_of_run (ctrRun_datapathOnly c _ _ s) (exec_ctre hs hv hw)

theorem answers_menc (hs : s.engine = .ready c) (hv : c.Valid) (hiv : v.length = c.width)
    (hy : ∀ x ∈ y, x < 256) : Answers (.menc y v) s (.bits (encodeMessage c y v)) := by
  rw [encodeMessage_eq hv rfl]
  exact answers_of_run (ctrRun_datapathOnly c _ _ s) (exec_menc hs hv hiv hy rfl)

theorem exec_mdec_empty (hs : s.engine = .ready c) :
    exec (.mdec []) s = answerErr .lengthMismatch s :=
  (whenReady_ready s c _ hs).trans
    (if_pos ((splitIntoBlocks_length [] c.width).trans (chunkCount_zero c.width)))

/-- `MDEC` answers what `decodeMessage` finds, after the CTR pass (R204, R206). -/
theorem exec_mdec (hs : s.engine = .ready c) (hv : c.Valid)
    (hsplit : splitIntoBlocks a c.width = v :: p) :
    exec (.mdec a) s = answerText (decodeMessage c a) (ctrRun c (v :: p) [] s).2 := by
  have hne : (splitIntoBlocks a c.width).length ≠ 0 := by simp [hsplit]
  have hx : exec (.mdec a) s =
      answerText (bitsToText (joinBlocks (ctrRun c (splitIntoBlocks a c.width) [] s).1))
        (ctrRun c (splitIntoBlocks a c.width) [] s).2 :=
    (whenReady_ready s c _ hs).trans (if_neg hne)
  rw [hx, hsplit, ctrRun_output v p [] s hv, List.nil_append, decodeMessage_eq hsplit]

/-- The response of a text answer, by what was decoded. -/
theorem answerText_response (d : DecodedText) (s : State) :
    ∃ t, answerText d s = .next t ∧
      (∀ y, d = .text y → t.response = some ⟨none, false, some (.text y)⟩) ∧
      (d = .noMarker → t.response = some ⟨none, true, some (.text [])⟩) ∧
      (d = .misaligned → t.response = some ⟨some .lengthMismatch, false, none⟩) := by
  cases d with
  | text y => exact ⟨_, rfl, fun _ h => by cases h; rfl, nofun, nofun⟩
  | noMarker => exact ⟨_, rfl, nofun, fun _ => rfl, nofun⟩
  | misaligned => exact ⟨_, rfl, nofun, nofun, fun _ => rfl⟩

/-- The late error keeps the registers of a pass that used the round engine (log 8). -/
theorem CtrRegisters.raiseErr {k : Nat} (h : CtrRegisters c s u v k) (hk : 0 < k) (e : ErrClass) :
    CtrRegisters c s (raiseErr e u) v k where
  iv := h.iv
  idx := rfl
  payload _ := by
    obtain ⟨hcnt, hblk, hrnd, -⟩ := h.payload hk
    exact ⟨hcnt, hblk, hrnd, rfl⟩
  no_payload h0 := absurd h0 hk.ne'

end Sys2Proof.Machine

open Sys2Proof Sys2Proof.Machine

/-- Settles O48: the last marker of the recovered bits decides between the outcomes of `MDEC`; the late
error needs a payload, since without one no bit is recovered. -/
theorem mdecRule : Obligations.MdecRule := by
  refine fun a s => ⟨raises_of_notReady rfl, fun c hs hv =>
    ⟨fun ha => raises_of_answerErr _ s _ (ha ▸ exec_mdec_empty hs), fun ha => ?_⟩⟩
  have hw := hv.width_pos
  obtain ⟨v, p, hsplit⟩ := splitIntoBlocks_eq_cons hw ha
  obtain ⟨hvw, hpw⟩ := List.forall_mem_cons.mp (hsplit ▸ splitIntoBlocks_width a c.width hw)
  obtain ⟨z, hz, hlen, hfill⟩ := zeroFill_eq_cons hw hsplit
  have hx := exec_mdec hs hv hsplit
  rw [decodeMessage_eq hsplit] at hx
  refine ⟨z, p.length, v, joinBlocks (ctrTransform c v p), hz, hlen, ?_, ?_, fun hnone => ?_,
    fun j hj hlast h8 => ?_, fun j hj hlast h8 => ?_⟩
  · rw [hfill, subBits_append_left _ _ _ _ (by omega), ← hvw, subBits_all]
  · rw [hfill, List.drop_left' hvw, joinBlocks_ctrTransform hv hpw]
  · rw [bitsToText_noMarker _ (lastMarker_of_none _ hnone)] at hx
    exact completed_of_ctrRun hv hx
  · rw [bitsToText_text _ j (lastMarker_of_last _ j hj hlast) h8] at hx
    obtain ⟨t, ht, hdone, hregs⟩ := completed_of_ctrRun (d := false) hv hx
    exact ⟨t, _, ht, hdone, by simp, charsBefore_getElem? _ j, hregs⟩
  · rw [bitsToText_misaligned _ j (lastMarker_of_last _ j hj hlast) h8] at hx
    have hpayload : 0 < p.length := by
      refine List.length_pos_iff.mpr fun hnil => ?_
      subst hnil
      cases hj
    have hrun := ctrRun_datapathOnly c (v :: p) [] s
    exact ⟨_, hx, hrun.raiseErr_reported _, hrun.engine_eq,
      (ctrRun_registers c (v :: p) [] s hv.r_pos).raiseErr hpayload _⟩

/-- Settles O49: the transform undoes itself and keeps the block width, so each output is admitted again. -/
theorem ctrSymmetry : Obligations.CtrSymmetry := by
  refine ⟨fun c hv => hv.ctrInverts, fun v p s c hs hv hw => ?_⟩
  obtain ⟨hvw, hpw⟩ := List.forall_mem_cons.mp hw
  have hinv := hv.ctrInverts v p hw
  have hw' : ∀ b ∈ v :: ctrTransform c v p, b.length = c.width :=
    List.forall_mem_cons.mpr ⟨hvw, ctrTransform_width v p hv hpw⟩
  refine ⟨?_, ?_, ?_⟩
  · refine (answers_ctre hs hv hw).andThen fun t ht => ?_
    have hctrx := answers_ctrx (ht.trans hs) hv hw'
    rwa [hinv] at hctrx
  · refine (answers_ctrx hs hv hw).andThen fun t ht => ?_
    have hctre := answers_ctre (ht.trans hs) hv hw'
    rwa [hinv] at hctre
  · obtain ⟨t, ht, -, htr⟩ := answers_ctrx hs hv hw
    obtain ⟨u, hu, -, hur⟩ := answers_ctre hs hv hw
    exact ⟨t, u, _, ht, htr, hu, hur⟩

/-- Settles O50: the ciphertext begins with the IV, so it is not empty, and `decodeMessage` finds the
text. -/
theorem messageRoundTrip : Obligations.MessageRoundTrip := by
  refine ⟨fun c hv => hv.messagesInvert, fun y v s c hs hv hvw hy => ?_⟩
  refine (answers_menc hs hv hvw hy).andThen fun t ht => ?_
  have hne : encodeMessage c y v ≠ [] := by
    rw [encodeMessage_eq hv rfl]
    refine List.append_ne_nil_of_left_ne_nil (List.ne_nil_of_length_pos ?_) _
    exact hvw ▸ hv.width_pos
  obtain ⟨v', p, hsplit⟩ := splitIntoBlocks_eq_cons hv.width_pos hne
  have hx := exec_mdec (ht.trans hs) hv hsplit
  rw [hv.messagesInvert y v hvw hy] at hx
  exact answers_of_run (ctrRun_datapathOnly c _ _ t) hx

/-- Settles O51: the command answers the transform, which changes where its payload does. -/
theorem keystreamIndependence : Obligations.KeystreamIndependence := by
  refine ⟨fun c _ => keystreamIndependent c, fun v p i x d s c hs hv hw hx hd => ?_⟩
  obtain ⟨hvw, hpw⟩ := List.forall_mem_cons.mp hw
  have hxw : (xorBits x d).length = c.width := by
    rw [xorBits_length, hpw x (List.mem_of_getElem? hx), hd, Nat.min_self]
  have hw' : ∀ b ∈ v :: p.set i (xorBits x d), b.length = c.width := by
    refine List.forall_mem_cons.mpr ⟨hvw, fun b hb => ?_⟩
    rcases List.mem_or_eq_of_mem_set hb with hb | rfl
    · exact hpw b hb
    · exact hxw
  obtain ⟨y, hy, hset⟩ := keystreamIndependent c v p i x d hx
  obtain ⟨t, ht, -, htr⟩ := answers_ctrx hs hv hw
  obtain ⟨u, hu, -, hur⟩ := answers_ctrx hs hv hw'
  exact ⟨t, u, _, y, ht, htr, hy, hu, hset ▸ hur⟩

/-- Settles O53: the answer of each command in `Ready` is stated by its function, and of `MDEC` by what the
function finds. -/
theorem pipelinesComputeFunctions : Obligations.PipelinesComputeFunctions := by
  refine fun s c hs hv => ⟨fun v p hw => ⟨?_, ?_⟩, fun y v hvw hy => ?_, fun a ha => ?_⟩
  · obtain ⟨t, ht, -, htr⟩ := answers_ctrx hs hv hw
    exact ⟨t, ht, htr⟩
  · obtain ⟨t, ht, -, htr⟩ := answers_ctre hs hv hw
    exact ⟨t, ht, htr⟩
  · obtain ⟨t, ht, -, htr⟩ := answers_menc hs hv hvw hy
    exact ⟨t, ht, htr⟩
  · obtain ⟨v, p, hsplit⟩ := splitIntoBlocks_eq_cons hv.width_pos ha
    rw [exec_mdec hs hv hsplit]
    exact answerText_response _ _

end
